-- ==== Sys2Proof/Word.lean ====
section
/-!
DEFINITION. The machine's word type. A cell holds text, not bits (spec 10_state.md R15): the "word" of this machine is a
finite string of characters, of any length, and everything else the core computes is an unbounded natural number
(spec 00_scope.md R12).
-/

namespace Sys2Proof

/-- A cell: a finite sequence of characters (R15). A list of characters rather than Lean's `String`, so that Lean's kernel
evaluates it. DESIGN CHOICE (log 1): a character is a Unicode scalar value; the spec fixes no character set. -/
abbrev Cell := List Char

end Sys2Proof
end

