-- ==== Sys2Proof/Machine/ArithmeticUnit.lean ====
section
/-!
DEFINITION. The ArithmeticUnit (spec 42_arithmetic.md R94 to R100, R103): pure functions between the textual hexadecimal
representation and unbounded natural numbers, and the one arithmetic operation, addition.
-/

namespace Sys2Proof.Machine

/-- The uppercase hexadecimal digits in the order of their values: the place of a character in this list is its value
(R94; that base 16 gives the digits these values is PRESUMED, as R94 itself says, log 5). -/
def hexAlphabet : Cell :=
  ['0', '1', '2', '3', '4', '5', '6', '7', '8', '9', 'A', 'B', 'C', 'D', 'E', 'F']

/-- `HexDigit(c)`: the value of an uppercase hexadecimal digit is its place in `hexAlphabet`; every other character has none
(R94, decision D2, log 5). -/
def hexDigit (c : Char) : Option Nat :=
  hexAlphabet.idxOf? c

/-- The uppercase hexadecimal digit of a value below 16 (R94, R96); a value of 16 or more is taken modulo 16. -/
def hexChar (d : Nat) : Char :=
  hexAlphabet[d % 16]'(Nat.mod_lt d (by decide))

/-- The positional sum of R95: each digit times 16 to the number of digits after it; none if some character is no digit. -/
def hexSum : Cell → Option Nat
  | [] => some 0
  | c :: cs =>
    match hexDigit c, hexSum cs with
    | some d, some v => some (d * 16 ^ cs.length + v)
    | _, _ => none

/-- `HexToInt(s)` of R95; none where the rule raises MalformedValue: the empty string (decision D7, log 8) and any string
with a character that is no digit (decision D2, log 5). The caller raises, with its own site and op (`parseHex`). -/
def hexToInt (s : Cell) : Option Nat :=
  if s.isEmpty then none else hexSum s

/-- The base-16 digits of `n`, most significant first, given at least as much fuel as there are digits (R96). -/
def hexDigits : Nat → Nat → Cell
  | 0, _ => []
  | fuel + 1, n => if n < 16 then [hexChar n] else hexDigits fuel (n / 16) ++ [hexChar (n % 16)]

/-- `IntToHex(n)` of R96: uppercase, no padding, no fixed width; zero is "0" (decision D6, log 7). -/
def intToHex (n : Nat) : Cell :=
  hexDigits (n + 1) n

/-- The sum the add instructions write, of two parsed sources: ordinary addition, no wrap, no saturation, unpadded
(R98, R99, R101; decision D8, log 9). -/
def addHex (a b : Nat) : Cell :=
  intToHex (a + b)

/-- A cell that is a hexadecimal string: not empty, and every character an uppercase digit (R95). -/
def isHexCell (s : Cell) : Bool :=
  (hexToInt s).isSome

end Sys2Proof.Machine
end

