-- ==== Sys2Proof/Config.lean ====
section
/-!
DEFINITION. The parameters the spec fixes for the core (spec 00_scope.md section 4, "Parameter summary"). Nothing is left to
an implementation, and no value is free: spec 93 section 1 ends with "No behaviour of the core is left as an arbitrary
value". The two parameters the spec leaves open, PROGRAM and LOAD_OUTCOME (92 P1, P2), are arguments of `load`.
-/

namespace Sys2Proof.Config

/-- NREG, the number of register cells (R9). -/
abbrev nreg : Nat := 16

/-- NMEM, the number of memory cells (R10). -/
abbrev nmem : Nat := 256

/-- ILEN, the significant characters of an instruction code and the least length decode accepts (R11, R56). -/
abbrev ilen : Nat := 4

/-- The initial value of every register and memory cell, the string "00" (R16). -/
abbrev initialCell : Cell := ['0', '0']

end Sys2Proof.Config
end

