-- ==== Sys2Proof/Syntax.lean ====
section
/-!
DEFINITION. The instructions: one constructor per row of spec/opcode_table.json, with the decoded fields of spec
30_encoding.md R59, R62 and R71. Register indices, addresses and destinations are natural numbers here; the ranges an
encoding admits (R61) are `Instr.wellFormed`'s business (Sys2Proof/WellFormed.lean), and the machine checks every index again
at the access (R19).
-/

namespace Sys2Proof

/-- Where a string failed to parse as hexadecimal (60_exceptions.md R113, field `site`). -/
inductive Site where
  /-- Character 0 of a fetched code (R58). -/
  | opcode
  /-- Character 1 of a fetched code (R58). -/
  | register
  /-- Characters 2 and 3 of a fetched code (R58). -/
  | operand
  /-- The first source of an add instruction (R101). -/
  | src1
  /-- The second source of an add instruction (R101). -/
  | src2
deriving DecidableEq, Repr

/-- The sixteen values of the opcode character (R65, R66). -/
inductive Opcode where
  | op0 | op1 | op2 | op3 | op4 | op5 | op6 | op7 | op8 | op9 | opA | opB | opC | opD | opE | opF
deriving DecidableEq, Repr

/-- An instruction: one constructor per row of spec/opcode_table.json, in the table's order. HALT and the unrecognized
opcodes have don't-care fields only, which decode does not keep (R68, R71). -/
inductive Instr where
  /-- Opcode 0, UNRECOGNIZED-0 (R107). -/
  | unrecognized0
  /-- Opcode 1, LOAD-MEM: destination register `r`, memory address `aa` (R90). -/
  | loadMem (r aa : Nat)
  /-- Opcode 2, LOAD-IMM: destination register `r`, the raw two-character literal `lit` (R91). -/
  | loadImm (r : Nat) (lit : Cell)
  /-- Opcode 3, STORE: source register `r`, memory address `aa` (R92). -/
  | store (r aa : Nat)
  /-- Opcode 4, MOVE: source register `r`, destination register index `aa`, 0 to 255 (R93). -/
  | move (r aa : Nat)
  /-- Opcode 5, ADD-INT: destination register `r`, source registers `s` and `t` (R101). -/
  | addInt (r s t : Nat)
  /-- Opcode 6, ADD-FLOAT: destination register `r`, source registers `s` and `t` (R102). -/
  | addFloat (r s t : Nat)
  /-- Opcode 7, UNRECOGNIZED-7 (R107). -/
  | unrecognized7
  /-- Opcode 8, UNRECOGNIZED-8 (R107). -/
  | unrecognized8
  /-- Opcode 9, UNRECOGNIZED-9 (R107). -/
  | unrecognized9
  /-- Opcode A, UNRECOGNIZED-A (R107). -/
  | unrecognizedA
  /-- Opcode B, JUMP-EQ: compared register `r`, target address `aa` (R104). -/
  | jumpEq (r aa : Nat)
  /-- Opcode C, HALT (R105). -/
  | halt
  /-- Opcode D, UNRECOGNIZED-D (R107). -/
  | unrecognizedD
  /-- Opcode E, UNRECOGNIZED-E (R107). -/
  | unrecognizedE
  /-- Opcode F, UNRECOGNIZED-F (R107). -/
  | unrecognizedF
deriving DecidableEq, Repr

end Sys2Proof
end

