-- ==== Sys2Proof/WellFormed.lean ====
section
/-!
DEFINITION. Which instruction terms an encoding can produce: the field ranges of spec 30_encoding.md R61 and, for the
LOAD-IMM literal, the two uppercase hexadecimal digits of R58 and R63.
-/

namespace Sys2Proof

/-- A register field is one hexadecimal digit: 0 to 15 (R61). -/
def registerField (r : Nat) : Bool :=
  decide (r < 16)

/-- An operand field read as a number is two hexadecimal digits: 0 to 255 (R61). -/
def operandField (aa : Nat) : Bool :=
  decide (aa < 256)

/-- A literal is exactly two characters, each an uppercase hexadecimal digit (R58, R91). -/
def literalField (lit : Cell) : Bool :=
  decide (lit.length = 2) && lit.all (fun c => (Machine.hexDigit c).isSome)

/-- Every field of the instruction is in the range its encoding admits (R61, R62). -/
def Instr.wellFormed : Instr → Bool
  | .unrecognized0 => true
  | .loadMem r aa => registerField r && operandField aa
  | .loadImm r lit => registerField r && literalField lit
  | .store r aa => registerField r && operandField aa
  | .move r aa => registerField r && operandField aa
  | .addInt r s t => registerField r && registerField s && registerField t
  | .addFloat r s t => registerField r && registerField s && registerField t
  | .unrecognized7 => true
  | .unrecognized8 => true
  | .unrecognized9 => true
  | .unrecognizedA => true
  | .jumpEq r aa => registerField r && operandField aa
  | .halt => true
  | .unrecognizedD => true
  | .unrecognizedE => true
  | .unrecognizedF => true

end Sys2Proof
end

