-- ==== Sys2Proof/Decode.lean ====
section
/-!
DEFINITION. The decoder of spec 30_encoding.md R55 to R71, total on every string and rejecting by name; after it the encoder
of R72 and R74, and the 16-bit view of R60 that spec/opcode_table.json numbers its bits in.
-/

namespace Sys2Proof

/-- The opcode a character selects: the sixteen uppercase hexadecimal digits, and no other character (R58, R65, R66). -/
def Opcode.ofChar (c : Char) : Option Opcode :=
  match c with
  | '0' => some .op0
  | '1' => some .op1
  | '2' => some .op2
  | '3' => some .op3
  | '4' => some .op4
  | '5' => some .op5
  | '6' => some .op6
  | '7' => some .op7
  | '8' => some .op8
  | '9' => some .op9
  | 'A' => some .opA
  | 'B' => some .opB
  | 'C' => some .opC
  | 'D' => some .opD
  | 'E' => some .opE
  | 'F' => some .opF
  | _ => none

/-- The character that selects an opcode (R66). -/
def Opcode.toChar : Opcode → Char
  | .op0 => '0'
  | .op1 => '1'
  | .op2 => '2'
  | .op3 => '3'
  | .op4 => '4'
  | .op5 => '5'
  | .op6 => '6'
  | .op7 => '7'
  | .op8 => '8'
  | .op9 => '9'
  | .opA => 'A'
  | .opB => 'B'
  | .opC => 'C'
  | .opD => 'D'
  | .opE => 'E'
  | .opF => 'F'

/-- The fields of a code whose first four characters passed the checks of R58, as R59 defines them: the primary register,
the operand field as a number and as text, and the two sub-fields of the add opcodes. -/
structure Fields where
  /-- `r`, character 1. -/
  r : Nat
  /-- `aa`, characters 2 and 3 as a number. -/
  aa : Nat
  /-- `lit`, characters 2 and 3 as text. -/
  lit : Cell
  /-- `s`, character 2. -/
  s : Nat
  /-- `t`, character 3. -/
  t : Nat
deriving DecidableEq, Repr

/-- The opcode map over all sixteen opcodes, with the operand form of each (R62, R66). -/
def opcodeMap (op : Opcode) (f : Fields) : Instr :=
  match op with
  | .op0 => .unrecognized0
  | .op1 => .loadMem f.r f.aa
  | .op2 => .loadImm f.r f.lit
  | .op3 => .store f.r f.aa
  | .op4 => .move f.r f.aa
  | .op5 => .addInt f.r f.s f.t
  | .op6 => .addFloat f.r f.s f.t
  | .op7 => .unrecognized7
  | .op8 => .unrecognized8
  | .op9 => .unrecognized9
  | .opA => .unrecognizedA
  | .opB => .jumpEq f.r f.aa
  | .opC => .halt
  | .opD => .unrecognizedD
  | .opE => .unrecognizedE
  | .opF => .unrecognizedF

/-- What decode answers (R71). -/
inductive Decoded where
  /-- MALFORMED: the code is shorter than 4 characters (R56). -/
  | malformed
  /-- BADVALUE: the field `text` at `site` is not uppercase hexadecimal (R58). -/
  | badValue (text : Cell) (site : Site)
  /-- An instruction. -/
  | instr (i : Instr)
deriving DecidableEq, Repr

/-- `Decode(code)` of R71. The checks are in the order of R58: opcode, register, then the operand field as one field;
characters at positions 4 and beyond are not read (R57, decision D5, log 6). -/
def decode (code : Cell) : Decoded :=
  match code with
  | c0 :: c1 :: c2 :: c3 :: _ =>
    match Opcode.ofChar c0 with
    | none => .badValue [c0] .opcode
    | some op =>
      match Machine.hexDigit c1 with
      | none => .badValue [c1] .register
      | some r =>
        match Machine.hexDigit c2, Machine.hexDigit c3 with
        | some s, some t => .instr (opcodeMap op ⟨r, 16 * s + t, [c2, c3], s, t⟩)
        | _, _ => .badValue [c2, c3] .operand
  | _ => .malformed

/-- Two hexadecimal digits of a number below 256, the more significant first (R63, R74). -/
def hexByte (aa : Nat) : Cell :=
  [Machine.hexChar (aa / 16), Machine.hexChar (aa % 16)]

/-- The opcode of an instruction (R66). -/
def Instr.opcode : Instr → Opcode
  | .unrecognized0 => .op0
  | .loadMem _ _ => .op1
  | .loadImm _ _ => .op2
  | .store _ _ => .op3
  | .move _ _ => .op4
  | .addInt _ _ _ => .op5
  | .addFloat _ _ _ => .op6
  | .unrecognized7 => .op7
  | .unrecognized8 => .op8
  | .unrecognized9 => .op9
  | .unrecognizedA => .opA
  | .jumpEq _ _ => .opB
  | .halt => .opC
  | .unrecognizedD => .opD
  | .unrecognizedE => .opE
  | .unrecognizedF => .opF

/-- The three characters after the opcode character (R72, R74). A don't-care field is written as zeros, as R72 writes HALT:
`C000`; the unrecognized opcodes, for which R72 writes no code, take the same zeros (DESIGN CHOICE, log 21). -/
def Instr.operandText : Instr → Cell
  | .unrecognized0 => ['0', '0', '0']
  | .loadMem r aa => Machine.hexChar r :: hexByte aa
  | .loadImm r lit => Machine.hexChar r :: lit
  | .store r aa => Machine.hexChar r :: hexByte aa
  | .move r aa => Machine.hexChar r :: hexByte aa
  | .addInt r s t => [Machine.hexChar r, Machine.hexChar s, Machine.hexChar t]
  | .addFloat r s t => [Machine.hexChar r, Machine.hexChar s, Machine.hexChar t]
  | .unrecognized7 => ['0', '0', '0']
  | .unrecognized8 => ['0', '0', '0']
  | .unrecognized9 => ['0', '0', '0']
  | .unrecognizedA => ['0', '0', '0']
  | .jumpEq r aa => Machine.hexChar r :: hexByte aa
  | .halt => ['0', '0', '0']
  | .unrecognizedD => ['0', '0', '0']
  | .unrecognizedE => ['0', '0', '0']
  | .unrecognizedF => ['0', '0', '0']

/-- The code of an instruction: the opcode character, then the three others (R72, R74). -/
def encode (i : Instr) : Cell :=
  i.opcode.toChar :: i.operandText

/-- The code whose 16-bit view is `w` (R60): character 0 is bits 15 to 12, character 3 bits 3 to 0. -/
def wordCode (w : BitVec 16) : Cell :=
  [Machine.hexChar (w.extractLsb' 12 4).toNat, Machine.hexChar (w.extractLsb' 8 4).toNat,
   Machine.hexChar (w.extractLsb' 4 4).toNat, Machine.hexChar (w.extractLsb' 0 4).toNat]

/-- The 16-bit view of a code whose first four characters are uppercase hexadecimal digits (R60). -/
def codeWord (code : Cell) : Option (BitVec 16) :=
  match code with
  | c0 :: c1 :: c2 :: c3 :: _ =>
    match Machine.hexDigit c0, Machine.hexDigit c1, Machine.hexDigit c2, Machine.hexDigit c3 with
    | some d0, some d1, some d2, some d3 => some (BitVec.ofNat 16 (4096 * d0 + 256 * d1 + 16 * d2 + d3))
    | _, _, _, _ => none
  | _ => none

/-- The code of an instruction whose bits are the low `nbits` of `w`, numbered as spec/opcode_table.json numbers them: the
16-bit view of R60, every bit at or above `nbits` zero. The longest instruction is one word of 16 bits. -/
def tableCode (nbits w : Nat) : Cell :=
  wordCode (BitVec.ofNat 16 (w % 2 ^ nbits))

/-- The instruction the decoder reads from an instruction whose bits are `w`, numbered as spec/opcode_table.json numbers
them; none where it refuses (which no four hexadecimal digits make it do). -/
def decodeTableWord (nbits w : Nat) : Option Instr :=
  match decode (tableCode nbits w) with
  | .instr i => some i
  | .badValue _ _ => none
  | .malformed => none

end Sys2Proof
end

