-- ==== Sys2Proof/Machine/State.lean ====
section
/-!
DEFINITION. The machine's state (spec 10_state.md section 1), its error records and diagnostic events, and the state after
reset (70_reset_and_hazards.md R127). Plain data throughout.
-/

namespace Sys2Proof.Machine

/-- The engine status (R27). -/
inductive Status where
  /-- A step is possible (R76). -/
  | running
  /-- Ended by HALT or by a malformed instruction; final (R27, R84). -/
  | halted
  /-- Stopped by OutOfRange or MalformedValue; final (R27, R110). -/
  | faulted
deriving DecidableEq, Repr

/-- Why a Halted machine halted (R28). -/
inductive HaltCause where
  /-- HALT_INSTRUCTION: the HALT opcode (R105). -/
  | haltInstruction
  /-- MALFORMED_INSTRUCTION: a fetched code shorter than 4 characters (R79). -/
  | malformedInstruction
deriving DecidableEq, Repr

/-- The address space of a failed access (R113). -/
inductive Space where
  /-- The register file. -/
  | reg
  /-- The memory bank. -/
  | mem
deriving DecidableEq, Repr

/-- The direction of a failed access (R113). -/
inductive Access where
  /-- A read. -/
  | read
  /-- A write. -/
  | write
deriving DecidableEq, Repr

/-- The instruction or phase an error record names (R113). -/
inductive Op where
  /-- The fetch of a step (R77). -/
  | fetch
  /-- The decode of a fetched code (R80). -/
  | decode
  /-- LOAD-MEM. -/
  | loadMem
  /-- LOAD-IMM. -/
  | loadImm
  /-- STORE. -/
  | store
  /-- MOVE. -/
  | move
  /-- ADD-INT. -/
  | addInt
  /-- ADD-FLOAT. -/
  | addFloat
  /-- JUMP-EQ. -/
  | jumpEq
deriving DecidableEq, Repr

/-- The fault record of a Faulted machine (R29). -/
inductive FaultRecord where
  /-- OutOfRange: an index outside an array (R111). The index is an integer, so that -1 can be stated (R19). -/
  | outOfRange (space : Space) (index : Int) (access : Access) (op : Op)
  /-- MalformedValue: a string that is not hexadecimal where a value is parsed (R112). -/
  | malformedValue (text : Cell) (site : Site) (op : Op)
deriving DecidableEq, Repr

/-- A diagnostic event (R31). -/
inductive Event where
  /-- UNRECOGNIZED_OPCODE: its opcode character, the fetched code, the address it was fetched from (R107). -/
  | unrecognizedOpcode (opcode : Char) (code : Cell) (addr : Nat)
  /-- MALFORMED_INSTRUCTION: the fetched code and the address it was fetched from (R79). -/
  | malformedInstruction (code : Cell) (addr : Nat)
deriving DecidableEq, Repr

/-- The register file: exactly 16 cells (R9, R18). -/
abbrev RegFile := Vector Cell Config.nreg

/-- The memory bank (R10, R38) as a list of (address, cell) pairs in one canonical form, `Memory.wf`: addresses strictly
rising and below 256, and no entry equal to the initial cell "00", which is what an unlisted address reads as (R16). The
unit of memory is a cell of text, so the pairs hold strings and not the bytes of `Host.Cell` (log 2). -/
abbrev Memory := List (Nat × Cell)

/-- Everything the spec gives the machine (10_state.md section 1; R32: there is nothing else). -/
structure State where
  /-- `x[0]` to `x[15]` (R18). -/
  x : RegFile
  /-- `M[0]` to `M[255]` (R38). -/
  mem : Memory
  /-- The program counter, unbounded (R13, R23). -/
  pc : Nat
  /-- The current-instruction register (R26). -/
  ir : Cell
  /-- The engine status (R27). -/
  status : Status
  /-- `halt_cause`: a value while Halted, none otherwise (R28). -/
  haltCause : Option HaltCause
  /-- `fault`: a record while Faulted, none otherwise (R29). -/
  faultRecord : Option FaultRecord
  /-- The diagnostic log, oldest event first (R31). -/
  diag : List Event
deriving DecidableEq, Repr

/-- A step never ends in a fault of the MODEL, so this type has no constructor (log 4). The spec's own errors, OutOfRange and
MalformedValue, say what the machine becomes (R110 to R112): they are next states whose status is Faulted and whose
`faultRecord` names the error. Safe: nothing is stopped that the spec lets go on. -/
inductive Fault where
deriving DecidableEq, Repr

/-- What the model declines to do. -/
inductive Refusal where
  /-- An instruction without a meaning; no arm of `exec` raises it, since every opcode has its meaning. Safe: the model would
  stop where the hardware goes on. -/
  | notModelled (mnemonic : String)
  /-- Raised by `load` alone, on a machine that has already executed a step: the spec does not say what such a load does and
  asks the model to refuse it (R135, decision D23, log 15). Safe: the model stops where the hardware may go on. -/
  | loadAfterStep
deriving DecidableEq, Repr

/-- The machine right after reset: the table of R127. Every value is the spec's; `ir` empty is its decision D11 (log 10). -/
def State.reset : State where
  x := Vector.replicate Config.nreg Config.initialCell
  mem := []
  pc := 0
  ir := []
  status := .running
  haltCause := none
  faultRecord := none
  diag := []

end Sys2Proof.Machine
end

