-- ==== Sys2Proof/Machine/Ops.lean ====
section
/-!
DEFINITION. The named operations over registers and memory, the engine's stops (`raise`, `halt`), the diagnostic output
(`emit`) and the fetch. Spec 10_state.md R17 to R31, 20_memory.md R38 to R48, 40_engine.md R77 and R84, 60_exceptions.md R111
and R112.

An operation that can raise answers `Except FaultRecord`: the record is what `raise` puts into the state.
-/

namespace Sys2Proof.Machine

/-! ### The memory bank -/

/-- The canonical form of a memory: addresses strictly rising, each below 256, and no entry equal to what an unlisted address
reads as. Equal memories are then equal lists. -/
abbrev Memory.wf (m : Memory) : Prop :=
  m.Pairwise (fun p q => p.1 < q.1) ∧ ∀ p ∈ m, p.1 < Config.nmem ∧ p.2 ≠ Config.initialCell

/-- What the cell at an address holds: its entry, or "00" where none is listed (R16, R49). No bounds check here: that is
`memRead`'s. -/
def Memory.read (m : Memory) (a : Nat) : Cell :=
  match m with
  | [] => Config.initialCell
  | (b, v) :: rest => if a = b then v else Memory.read rest a

/-- Put a cell before a list of later addresses, unless it holds what an unlisted address reads as anyway. -/
def Memory.cons (a : Nat) (v : Cell) (rest : Memory) : Memory :=
  if v = Config.initialCell then rest else (a, v) :: rest

/-- Overwrite the cell at an address, verbatim (R17), keeping the canonical form. No bounds check here: that is
`memWrite`'s. -/
def Memory.write (m : Memory) (a : Nat) (v : Cell) : Memory :=
  match m with
  | [] => Memory.cons a v []
  | (b, w) :: rest =>
    if a < b then Memory.cons a v ((b, w) :: rest)
    else if a = b then Memory.cons a v rest
    else (b, w) :: Memory.write rest a v

/-! ### Updates of one piece of state -/

/-- The state with another register file. -/
def State.withX (s : State) (x : RegFile) : State := { s with x := x }

/-- The state with another memory. -/
def State.withMem (s : State) (m : Memory) : State := { s with mem := m }

/-- `pc <- t` (R23). -/
def State.withPc (s : State) (t : Nat) : State := { s with pc := t }

/-- `ir <- c` (R26). -/
def State.withIr (s : State) (c : Cell) : State := { s with ir := c }

/-- `emit(e)`: append an event at the end of the diagnostic log (R31). -/
def emit (e : Event) (s : State) : State := { s with diag := s.diag ++ [e] }

/-- `halt(cause)`: status Halted with its cause; the step ends (R84). -/
def halt (cause : HaltCause) (s : State) : State :=
  { s with status := .halted, haltCause := some cause }

/-- TAKING AN EXCEPTION. `raise`: status Faulted with the fault record; the step ends, every earlier write of the step stays
(R86, R110 to R112). It is the only entry there is: no handler, no vector, no saved pc, no mode (R115). There is no return
from it and none is modelled: no instruction leaves Faulted, and only a new machine runs again (R116). -/
def raise (f : FaultRecord) (s : State) : State :=
  { s with status := .faulted, faultRecord := some f }

/-- How a ControlUnit operation ends: normally in the state it made (R83), or by raising on the state it started from. No
operation writes before it can raise, so nothing it wrote is lost (R86). -/
def finish (s : State) (r : Except FaultRecord State) : Host.Outcome State Fault Refusal :=
  match r with
  | .ok t => .next t
  | .error f => .next (raise f s)

/-! ### Bounds-checked access -/

/-- The accessor contract's index test, for an array of capacity `cap`: `0 <= i` and `i < cap` (R19). A negative index
(`Int.negSucc`) is never in range. -/
def inRange (i : Int) (cap : Nat) : Bool :=
  match i with
  | .ofNat n => decide (n < cap)
  | .negSucc _ => false

/-- An index in range, as a natural number, is below the capacity. -/
theorem toNat_lt_of_inRange {i : Int} {cap : Nat} (h : inRange i cap = true) : i.toNat < cap := by
  cases i with
  | ofNat n => exact of_decide_eq_true h
  | negSucc n => cases h

/-- Read register cell `i`: the cell, unchanged, or OutOfRange (R20). -/
def regRead (s : State) (i : Int) (op : Op) : Except FaultRecord Cell :=
  if h : inRange i Config.nreg then .ok (s.x[i.toNat]'(toNat_lt_of_inRange h))
  else .error (.outOfRange .reg i .read op)

/-- Write register cell `i`, verbatim, or OutOfRange (R20). -/
def regWrite (s : State) (i : Int) (v : Cell) (op : Op) : Except FaultRecord State :=
  if h : inRange i Config.nreg then .ok (s.withX (s.x.set i.toNat v (toNat_lt_of_inRange h)))
  else .error (.outOfRange .reg i .write op)

/-- `MemRead(a, 1)`: the whole cell, unchanged, or OutOfRange (R41). -/
def memRead (s : State) (a : Int) (op : Op) : Except FaultRecord Cell :=
  if inRange a Config.nmem then .ok (s.mem.read a.toNat)
  else .error (.outOfRange .mem a .read op)

/-- `MemWrite(a, 1, v)`: verbatim, or OutOfRange (R41). -/
def memWrite (s : State) (a : Int) (v : Cell) (op : Op) : Except FaultRecord State :=
  if inRange a Config.nmem then .ok (s.withMem (s.mem.write a.toNat v))
  else .error (.outOfRange .mem a .write op)

/-! ### The fetch -/

/-- The state a fetch leaves when its read answers `code` (R77). -/
def fetched (code : Cell) (s : State) : State :=
  (s.withIr code).withPc (s.pc + 1)

/-- `Fetch` of R77: read the cell at `pc`, copy it to `ir`, advance `pc`. The read comes first, so a failed fetch changes
neither (decision D10, log 11). -/
def fetch (s : State) : Except FaultRecord State :=
  match memRead s s.pc .fetch with
  | .ok code => .ok (fetched code s)
  | .error f => .error f

end Sys2Proof.Machine
end

