-- ==== Sys2Proof/Machine/Operands.lean ====
section
/-!
DEFINITION. The operand forms of spec 30_encoding.md R62 and R63: how each instruction gets the value of a source and puts a
result into its destination. A form is one bounds-checked access with the index the field gives, no more: an index is
zero-extended, never sign-extended, scaled or shifted (R63).
-/

namespace Sys2Proof.Machine

/-- A register operand, read: fields `r`, `s`, `t` as sources (R22, R62). -/
def srcRegister (s : State) (r : Nat) (op : Op) : Except FaultRecord Cell :=
  regRead s (r : Int) op

/-- A register operand, written: field `r`, and for MOVE the whole field `aa` (R22, R62). -/
def dstRegister (s : State) (r : Nat) (v : Cell) (op : Op) : Except FaultRecord State :=
  regWrite s (r : Int) v op

/-- A memory operand, read: field `aa` of LOAD-MEM (R40, R62). -/
def srcMemory (s : State) (aa : Nat) (op : Op) : Except FaultRecord Cell :=
  memRead s (aa : Int) op

/-- A memory operand, written: field `aa` of STORE (R40, R62). -/
def dstMemory (s : State) (aa : Nat) (v : Cell) (op : Op) : Except FaultRecord State :=
  memWrite s (aa : Int) v op

/-- A cell parsed as a hexadecimal integer at a site, or MalformedValue with the whole cell as its text (R95, R112). -/
def parseHex (text : Cell) (site : Site) (op : Op) : Except FaultRecord Nat :=
  match hexToInt text with
  | some v => .ok v
  | none => .error (.malformedValue text site op)

end Sys2Proof.Machine
end

