-- ==== Sys2Proof/Machine/Arithmetic.lean ====
section
/-!
DEFINITION. ADD-INT and ADD-FLOAT (spec 42_arithmetic.md R101, R102): two opcodes, one arithmetic.
-/

namespace Sys2Proof.Machine

/-- The add of R101: both sources are read and parsed, source 1 first, before the destination is written. -/
def addRegisters (op : Op) (r src1 src2 : Nat) (s : State) : Except FaultRecord State := do
  let vs ← srcRegister s src1 op
  let vt ← srcRegister s src2 op
  let a ← parseHex vs .src1 op
  let b ← parseHex vt .src2 op
  dstRegister s r (addHex a b) op

/-- ADD-INT: `x[r] <- IntToHex(HexToInt(x[s]) + HexToInt(x[t]))` (R101). -/
def execAddInt (r src1 src2 : Nat) (s : State) : Host.Outcome State Fault Refusal :=
  finish s (addRegisters .addInt r src1 src2 s)

/-- ADD-FLOAT: integer addition, as ADD-INT, with its own name in the error records (R102). -/
def execAddFloat (r src1 src2 : Nat) (s : State) : Host.Outcome State Fault Refusal :=
  finish s (addRegisters .addFloat r src1 src2 s)

end Sys2Proof.Machine
end

