-- ==== Sys2Proof/Machine/Flags.lean ====
section
/-!
DEFINITION. The core has no status flags and no condition codes (spec 10_state.md R32), so no flag is computed. The one
condition the core tests is JUMP-EQ's, which compares two cells directly (43_control.md R104).
-/

namespace Sys2Proof.Machine

/-- JUMP-EQ's condition: the two cells are the same string, of the same length and with the same characters; not the same
number (R104, decision D9, log 3). -/
def cellsEqual (a b : Cell) : Bool :=
  decide (a = b)

end Sys2Proof.Machine
end

