-- ==== Sys2Proof/Machine/Control.lean ====
section
/-!
DEFINITION. JUMP-EQ, HALT and the eight unrecognized opcodes (spec 43_control.md R104 to R108).
-/

namespace Sys2Proof.Machine

/-- JUMP-EQ: `if x[r] == x[0] then pc <- aa`; the target is absolute and is not checked (R104, R108). -/
def execJumpEq (r aa : Nat) (s : State) : Host.Outcome State Fault Refusal :=
  finish s (do
    let a ← srcRegister s r .jumpEq
    let b ← srcRegister s 0 .jumpEq
    .ok (if cellsEqual a b then s.withPc aa else s))

/-- HALT: status Halted, cause HALT_INSTRUCTION (R105). -/
def execHalt (s : State) : Host.Outcome State Fault Refusal :=
  .next (halt .haltInstruction s)

/-- The address the current code was fetched from: `pc - 1`, since the fetch has advanced `pc` (R31, R78). -/
def codeAddress (s : State) : Nat :=
  s.pc - 1

/-- An unrecognized opcode: one diagnostic, nothing else (R107). The code is what the fetch put into `ir`. -/
def reportUnrecognized (op : Opcode) (s : State) : State :=
  emit (.unrecognizedOpcode op.toChar s.ir (codeAddress s)) s

/-- UNRECOGNIZED-0 (R107). -/
def execUnrecognized0 (s : State) : Host.Outcome State Fault Refusal :=
  .next (reportUnrecognized .op0 s)

/-- UNRECOGNIZED-7 (R107). -/
def execUnrecognized7 (s : State) : Host.Outcome State Fault Refusal :=
  .next (reportUnrecognized .op7 s)

/-- UNRECOGNIZED-8 (R107). -/
def execUnrecognized8 (s : State) : Host.Outcome State Fault Refusal :=
  .next (reportUnrecognized .op8 s)

/-- UNRECOGNIZED-9 (R107). -/
def execUnrecognized9 (s : State) : Host.Outcome State Fault Refusal :=
  .next (reportUnrecognized .op9 s)

/-- UNRECOGNIZED-A (R107). -/
def execUnrecognizedA (s : State) : Host.Outcome State Fault Refusal :=
  .next (reportUnrecognized .opA s)

/-- UNRECOGNIZED-D (R107). -/
def execUnrecognizedD (s : State) : Host.Outcome State Fault Refusal :=
  .next (reportUnrecognized .opD s)

/-- UNRECOGNIZED-E (R107). -/
def execUnrecognizedE (s : State) : Host.Outcome State Fault Refusal :=
  .next (reportUnrecognized .opE s)

/-- UNRECOGNIZED-F (R107). -/
def execUnrecognizedF (s : State) : Host.Outcome State Fault Refusal :=
  .next (reportUnrecognized .opF s)

end Sys2Proof.Machine
end

