-- ==== Sys2Proof/Machine/DataMovement.lean ====
section
/-!
DEFINITION. LOAD-MEM, LOAD-IMM, STORE and MOVE (spec 41_data_movement.md R90 to R93). Each copies one whole cell verbatim
(R42) and none writes `pc`.
-/

namespace Sys2Proof.Machine

/-- LOAD-MEM: `x[r] <- memory[aa]` (R90). -/
def execLoadMem (r aa : Nat) (s : State) : Host.Outcome State Fault Refusal :=
  finish s (do
    let v ← srcMemory s aa .loadMem
    dstRegister s r v .loadMem)

/-- LOAD-IMM: `x[r] <- lit`, the raw operand text (R91). -/
def execLoadImm (r : Nat) (lit : Cell) (s : State) : Host.Outcome State Fault Refusal :=
  finish s (dstRegister s r lit .loadImm)

/-- STORE: `memory[aa] <- x[r]` (R92). -/
def execStore (r aa : Nat) (s : State) : Host.Outcome State Fault Refusal :=
  finish s (do
    let v ← srcRegister s r .store
    dstMemory s aa v .store)

/-- MOVE: `x[aa] <- x[r]`; the destination index is the whole operand field, so 16 to 255 raise OutOfRange (R93). -/
def execMove (r aa : Nat) (s : State) : Host.Outcome State Fault Refusal :=
  finish s (do
    let v ← srcRegister s r .move
    dstRegister s aa v .move)

end Sys2Proof.Machine
end

