-- ==== Sys2Proof/Machine/Dispatch.lean ====
section
/-!
DEFINITION. The ControlUnit's dispatch (spec 40_engine.md R81): one operation per decoded instruction.
-/

namespace Sys2Proof.Machine

/-- The meaning of an instruction, on the state in which its fetch has left the machine (R78). -/
def exec (i : Instr) (s : State) : Host.Outcome State Fault Refusal :=
  match i with
  | .unrecognized0 => Sys2Proof.Machine.execUnrecognized0 s
  | .loadMem r aa => Sys2Proof.Machine.execLoadMem r aa s
  | .loadImm r lit => Sys2Proof.Machine.execLoadImm r lit s
  | .store r aa => Sys2Proof.Machine.execStore r aa s
  | .move r aa => Sys2Proof.Machine.execMove r aa s
  | .addInt r src1 src2 => Sys2Proof.Machine.execAddInt r src1 src2 s
  | .addFloat r src1 src2 => Sys2Proof.Machine.execAddFloat r src1 src2 s
  | .unrecognized7 => Sys2Proof.Machine.execUnrecognized7 s
  | .unrecognized8 => Sys2Proof.Machine.execUnrecognized8 s
  | .unrecognized9 => Sys2Proof.Machine.execUnrecognized9 s
  | .unrecognizedA => Sys2Proof.Machine.execUnrecognizedA s
  | .jumpEq r aa => Sys2Proof.Machine.execJumpEq r aa s
  | .halt => Sys2Proof.Machine.execHalt s
  | .unrecognizedD => Sys2Proof.Machine.execUnrecognizedD s
  | .unrecognizedE => Sys2Proof.Machine.execUnrecognizedE s
  | .unrecognizedF => Sys2Proof.Machine.execUnrecognizedF s

end Sys2Proof.Machine
end

