-- ==== Sys2Proof/Machine/Engine.lean ====
section
/-!
DEFINITION. The ExecutionEngine (spec 40_engine.md R76 to R89) over any dispatch: what a step does before and around the
ControlUnit's operation. `step` is this with `exec`.
-/

namespace Sys2Proof.Machine

/-- A malformed instruction: one diagnostic, then Halted with cause MALFORMED_INSTRUCTION (R79). -/
def takeMalformed (s : State) : State :=
  halt .malformedInstruction (emit (.malformedInstruction s.ir (codeAddress s)) s)

/-- A field that is not uppercase hexadecimal: MalformedValue at decode (R80). -/
def takeBadValue (text : Cell) (site : Site) (s : State) : State :=
  raise (.malformedValue text site .decode) s

/-- Decode and dispatch, on the state the fetch has left (R78 to R81). -/
def decodeDispatch (dispatch : Instr → State → Host.Outcome State Fault Refusal) (s : State) :
    Host.Outcome State Fault Refusal :=
  match decode s.ir with
  | .malformed => .next (takeMalformed s)
  | .badValue text site => .next (takeBadValue text site s)
  | .instr i => dispatch i s

/-- One step (R89): in Running, fetch, decode and dispatch; in Halted or Faulted nothing (R87, decision D12). -/
def engineStep (dispatch : Instr → State → Host.Outcome State Fault Refusal) (s : State) :
    Host.Outcome State Fault Refusal :=
  match s.status with
  | .halted => .next s
  | .faulted => .next s
  | .running =>
    match fetch s with
    | .error f => .next (raise f s)
    | .ok t => decodeDispatch dispatch t

/-- The state with a code stored at the address the next step fetches from; unchanged where `pc` names no cell, since no
code can stand there. -/
def placeCode (code : Cell) (s : State) : State :=
  if s.pc < Config.nmem then s.withMem (s.mem.write s.pc code) else s

end Sys2Proof.Machine
end

