-- ==== Sys2Proof/Machine/Step.lean ====
section
/-!
DEFINITION. The step function, and the placing of one instruction where the next step fetches.
-/

namespace Sys2Proof.Machine

/-- One execution cycle (spec 40_engine.md R76, R89): `engineStep` with the dispatch of `exec`. -/
def step (s : State) : Host.Outcome State Fault Refusal :=
  engineStep exec s

/-- The state with the instruction whose bits are the low `nbits` of `w` (numbered as spec/opcode_table.json numbers them)
stored in the memory cell at `pc`, where the next step fetches. It stands for the host's load of a program (R131, log 14) and
changes nothing else: a machine that is not Running stays so. -/
def State.withFetchWord (s : State) (nbits w : Nat) : State :=
  placeCode (tableCode nbits w) s

end Sys2Proof.Machine
end

