-- ==== Sys2Proof/Machine/Assembly.lean ====
section
/-!
DEFINITION. The spec's own notation (spec 30_encoding.md R72 and R73, decision D22): the text of an instruction and the five
pseudo-instructions with their expansions. Notation only: no part of it is an input of the core (R75).
-/

namespace Sys2Proof.Machine

/-- A register's name, `x0` to `xF` (R72). -/
def registerName (r : Nat) : Cell :=
  ['x', hexChar r]

/-- A cell in double quotes (R72). -/
def quoted (c : Cell) : Cell :=
  Char.ofNat 34 :: (c ++ [Char.ofNat 34])

/-- Operands separated by a comma and a space (R72). -/
def operandList (a b : Cell) : Cell :=
  a ++ ([',', ' '] ++ b)

/-- The directive that puts a string into a cell verbatim (R72). -/
def codeLine (c : Cell) : Cell :=
  ".code ".toList ++ quoted c

/-- The text of an instruction in the syntax of R72; an unrecognized opcode has no mnemonic there and is written with the
directive. -/
def assemblyText (i : Instr) : Cell :=
  match i with
  | .unrecognized0 => codeLine (encode i)
  | .loadMem r aa => "LOAD-MEM ".toList ++ operandList (registerName r) (hexByte aa)
  | .loadImm r lit => "LOAD-IMM ".toList ++ operandList (registerName r) (quoted lit)
  | .store r aa => "STORE ".toList ++ operandList (registerName r) (hexByte aa)
  | .move r aa => "MOVE ".toList ++ operandList (registerName r) (hexByte aa)
  | .addInt r s t => "ADD-INT ".toList ++ operandList (registerName r) (operandList (registerName s) (registerName t))
  | .addFloat r s t => "ADD-FLOAT ".toList ++ operandList (registerName r) (operandList (registerName s) (registerName t))
  | .unrecognized7 => codeLine (encode i)
  | .unrecognized8 => codeLine (encode i)
  | .unrecognized9 => codeLine (encode i)
  | .unrecognizedA => codeLine (encode i)
  | .jumpEq r aa => "JUMP-EQ ".toList ++ operandList (registerName r) (hexByte aa)
  | .halt => "HALT".toList
  | .unrecognizedD => codeLine (encode i)
  | .unrecognizedE => codeLine (encode i)
  | .unrecognizedF => codeLine (encode i)

/-- The pseudo-instructions (R73). -/
inductive Pseudo where
  /-- `JUMP AA`. -/
  | jump (aa : Nat)
  /-- `NOP`. -/
  | nop
  /-- `CLEAR xR`. -/
  | clear (r : Nat)
  /-- `COPY xD, xS`. -/
  | copy (d s : Nat)
  /-- `CANON xR, xZ`. -/
  | canon (r z : Nat)
deriving DecidableEq, Repr

/-- The expansion of a pseudo-instruction, one cell each (R73). -/
def Pseudo.expand : Pseudo → Instr
  | .jump aa => .jumpEq 0 aa
  | .nop => .move 0 0
  | .clear r => .loadImm r ['0', '0']
  | .copy d s => .move s d
  | .canon r z => .addInt r r z

end Sys2Proof.Machine
end

