-- ==== Sys2Proof/Machine/Session.lean ====
section
/-!
DEFINITION. The host's operations (spec 10_state.md R33 to R37, 40_engine.md R87 and R88, 70_reset_and_hazards.md R131 to R135):
load, single step with its returned status, run, snapshot, displayAll. None is an instruction; each is a function of the
explicit machine value (R130).
-/

namespace Sys2Proof.Machine

/-! ### What the host reads -/

/-- What `step` and `run` return to their caller: the status, with the cause or the record (R33). -/
structure Report where
  /-- The status. -/
  status : Status
  /-- The cause, while Halted. -/
  haltCause : Option HaltCause
  /-- The record, while Faulted. -/
  faultRecord : Option FaultRecord
deriving DecidableEq, Repr

/-- The report of a state (R33). -/
def reportOf (s : State) : Report :=
  ⟨s.status, s.haltCause, s.faultRecord⟩

/-- `displayAll` of the register file: (address, value) pairs in ascending address order (R17, R36). -/
def displayRegisters (s : State) : List (Nat × Cell) :=
  (List.range Config.nreg).zip s.x.toList

/-- `displayAll` of the memory bank: (address, value) pairs in ascending address order (R17, R36). -/
def displayMemory (s : State) : List (Nat × Cell) :=
  (List.range Config.nmem).map (fun a => (a, s.mem.read a))

/-- What a snapshot shows (R35, with the fields decision D16 adds, log 17). -/
structure Snapshot where
  /-- The program counter. -/
  pc : Nat
  /-- The current instruction code. -/
  ir : Cell
  /-- All 16 register values in address order. -/
  registers : List Cell
  /-- All 256 memory values in address order. -/
  memory : List Cell
  /-- The status with its cause or record. -/
  report : Report
  /-- The diagnostic log. -/
  diag : List Event
deriving DecidableEq, Repr

/-- `snapshot`: a read view of the whole state (R35). -/
def snapshot (s : State) : Snapshot where
  pc := s.pc
  ir := s.ir
  registers := s.x.toList
  memory := (List.range Config.nmem).map s.mem.read
  report := reportOf s
  diag := s.diag

/-! ### Step and run -/

/-- `step` as the host calls it: one execution cycle, then the report (R33). -/
def stepCall (s : State) : Host.Outcome (State × Report) Fault Refusal :=
  match step s with
  | .next t => .next (t, reportOf t)
  | .fault f => .fault f
  | .refused r => .refused r

/-- How `run` under a step budget ends (R88, decision D26, log 16). -/
inductive RunResult where
  /-- The machine is no longer Running: the run has returned. -/
  | ended (s : State)
  /-- The budget is used up and the machine is still Running: no state of the machine, and not "does not halt". -/
  | budgetExhausted (s : State)
  /-- A step was refused, which no step of this model is. -/
  | refused (r : Refusal)
deriving DecidableEq, Repr

/-- `run`: repeat `step` while Running, for at most `budget` steps (R34, R88). -/
def runCall (budget : Nat) (s : State) : RunResult :=
  match s.status with
  | .halted => .ended s
  | .faulted => .ended s
  | .running =>
    match budget with
    | 0 => .budgetExhausted s
    | k + 1 =>
      match step s with
      | .next t => runCall k t
      | .fault f => nomatch f
      | .refused r => .refused r

/-! ### Loading a program -/

/-- LOAD_OUTCOME (92 P2): whether the loader reported a failure, and after how many tokens. -/
inductive LoadOutcome where
  /-- Every token was read. -/
  | success
  /-- ProgramLoadFailure after the first `k` tokens (R133). -/
  | failureAfter (k : Nat)
deriving DecidableEq, Repr

/-- The tokens the loader writes: those before a failure, and none after the 256th (R131, R133). -/
def writtenTokens (program : List Cell) (outcome : LoadOutcome) : List Cell :=
  match outcome with
  | .success => program.take Config.nmem
  | .failureAfter k => (program.take k).take Config.nmem

/-- Write cells verbatim to ascending addresses from `a` (R131). -/
def Memory.writeFrom (m : Memory) (a : Nat) (cells : List Cell) : Memory :=
  match cells with
  | [] => m
  | c :: cs => Memory.writeFrom (m.write a c) (a + 1) cs

/-- No step has been executed: Running with an empty `ir`. DEDUCED (log 15): the first step either fetches a code, which
leaves `ir` not empty or the machine Halted, or faults. -/
def State.notStepped (s : State) : Bool :=
  decide (s.status = .running) && s.ir.isEmpty

/-- `load`: the loader writes `program` from address 0, before the first step, and nothing else; a machine that has stepped
refuses it (R131 to R135). The spec speaks of one load after reset; a second one before the first step is accepted and overlays
the first, so that cells past its last token keep what the first wrote there (DESIGN CHOICE, unsafe, log 25). -/
def load (program : List Cell) (outcome : LoadOutcome) (s : State) : Host.Outcome State Fault Refusal :=
  if s.notStepped then .next (s.withMem (s.mem.writeFrom 0 (writtenTokens program outcome)))
  else .refused .loadAfterStep

end Sys2Proof.Machine
end

