-- ==== Sys2Proof/Safety.lean ====
section
/-!
DEFINITION. The terms in which statements say what a good state and a good run are.
-/

namespace Sys2Proof.Machine

/-- `halt_cause` has a value exactly while Halted and `fault` exactly while Faulted (spec 10_state.md R28, R29). -/
abbrev State.consistent (s : State) : Prop :=
  (s.status = .halted ↔ s.haltCause ≠ none) ∧ (s.status = .faulted ↔ s.faultRecord ≠ none)

/-- The invariant of the machine: memory in its canonical form, `pc` one of 0 to 256 (R24), and the status fields agreeing
(R28, R29). -/
abbrev State.inv (s : State) : Prop :=
  s.mem.wf ∧ s.pc ≤ Config.nmem ∧ s.consistent

/-- Every register and every memory cell holds a hexadecimal string (R95). -/
abbrev State.hexOnly (s : State) : Prop :=
  (∀ r : Fin 16, isHexCell s.x[r] = true) ∧ ∀ p ∈ s.mem, isHexCell p.2 = true

/-- No error has stopped the run (R109, R110). -/
abbrev State.safe (s : State) : Prop :=
  s.status ≠ .faulted

/-- The fault record, if any, is not a MalformedValue (R112). -/
def State.noMalformedValue (s : State) : Prop :=
  ∀ text site op, s.faultRecord ≠ some (.malformedValue text site op)

end Sys2Proof.Machine
end

