-- ==== Sys2Proof/Certificates/Slice0/Obligations.lean ====
section
/-!
DEFINITION. The statements for the provers, one `def Obligations.<Name> : Prop` each, after a few abbreviations. "stated" below:
the statement formalises an unmarked numbered rule of the spec. "derived": it rests on a rule the spec marks as its own
inference or decision (named D<n>, spec 92_eei_decisions.md), or on a choice of the model (named by its log entry).
-/

open Sys2Proof Sys2Proof.Machine

namespace Sys2Proof.Statements

/-- The code a Running machine fetches. -/
abbrev codeAt (s : State) : Cell := s.mem.read s.pc

/-- The state in which a successful fetch leaves the machine (R77, R78). -/
abbrev afterFetch (s : State) : State := { s with ir := s.mem.read s.pc, pc := s.pc + 1 }

/-- A character with a digit value (R94). -/
abbrev isDigit (c : Char) : Prop := (hexDigit c).isSome = true

/-- The eight unrecognized opcode characters with their instructions (R66, R67). -/
def unrecognizedRows : List (Char × Instr) :=
  [('0', .unrecognized0), ('7', .unrecognized7), ('8', .unrecognized8), ('9', .unrecognized9),
   ('A', .unrecognizedA), ('D', .unrecognizedD), ('E', .unrecognizedE), ('F', .unrecognizedF)]

/-- The instructions whose encodings have no don't-care field (R68). -/
def keepsEveryField (i : Instr) : Bool :=
  match i.opcode with
  | .op1 | .op2 | .op3 | .op4 | .op5 | .op6 | .opB => true
  | .op0 | .op7 | .op8 | .op9 | .opA | .opC | .opD | .opE | .opF => false

/-- A row of spec/opcode_table.json read off the bits of the 16-bit view, by the table's own bit ranges. -/
def tableRow (w : BitVec 16) : Instr :=
  let r := (w.extractLsb 11 8).toNat
  let aa := (w.extractLsb 7 0).toNat
  let s := (w.extractLsb 7 4).toNat
  let t := (w.extractLsb 3 0).toNat
  match (w.extractLsb 15 12).toNat with
  | 0x1 => .loadMem r aa
  | 0x2 => .loadImm r [hexChar s, hexChar t]
  | 0x3 => .store r aa
  | 0x4 => .move r aa
  | 0x5 => .addInt r s t
  | 0x6 => .addFloat r s t
  | 0x7 => .unrecognized7
  | 0x8 => .unrecognized8
  | 0x9 => .unrecognized9
  | 0xA => .unrecognizedA
  | 0xB => .jumpEq r aa
  | 0xC => .halt
  | 0xD => .unrecognizedD
  | 0xE => .unrecognizedE
  | 0xF => .unrecognizedF
  | _ => .unrecognized0

/-- A hexadecimal string without its leading zeros, "0" where nothing else is left (R97). -/
def withoutLeadingZeros (c : Cell) : Cell :=
  match c.dropWhile (fun d => d = '0') with
  | [] => ['0']
  | d :: ds => d :: ds

/-- What an add opcode does, with `op` in its error records (R101, R102): encoding, the sum, and MalformedValue on source 1,
else on source 2. -/
def AddsAs (opcodeChar : Char) (mk : Nat → Nat → Nat → Instr) (op : Op) : Prop :=
  ∀ (st : State) (r s t : Nat) (hr : r < 16) (hs : s < 16) (ht : t < 16),
    decode [opcodeChar, hexChar r, hexChar s, hexChar t] = .instr (mk r s t) ∧
    (∀ a b, hexToInt st.x[s] = some a → hexToInt st.x[t] = some b →
      exec (mk r s t) st = .next { st with x := st.x.set r (intToHex (a + b)) }) ∧
    (hexToInt st.x[s] = none →
      exec (mk r s t) st =
        .next { st with status := .faulted, faultRecord := some (.malformedValue st.x[s] .src1 op) }) ∧
    (∀ a, hexToInt st.x[s] = some a → hexToInt st.x[t] = none →
      exec (mk r s t) st =
        .next { st with status := .faulted, faultRecord := some (.malformedValue st.x[t] .src2 op) })

/-- The register an instruction names as its destination (R22). -/
def destinationOf : Instr → Option Nat
  | .loadMem r _ => some r
  | .loadImm r _ => some r
  | .move _ aa => some aa
  | .addInt r _ _ => some r
  | .addFloat r _ _ => some r
  | .unrecognized0 | .store _ _ | .unrecognized7 | .unrecognized8 | .unrecognized9 | .unrecognizedA | .jumpEq _ _
  | .halt | .unrecognizedD | .unrecognizedE | .unrecognizedF => none

/-- The diagnostics a step appends for the code it fetched from `addr` (R31). -/
def diagnosticsOf (code : Cell) (addr : Nat) : List Event :=
  match decode code with
  | .malformed => [.malformedInstruction code addr]
  | .badValue _ _ => []
  | .instr i => if (unrecognizedRows.map Prod.snd).contains i then [.unrecognizedOpcode i.opcode.toChar code addr] else []

end Sys2Proof.Statements

open Sys2Proof.Statements

/-! ### Encoding and decoding -/

/-- Derived (30_encoding.md section 7, R74): every well-formed instruction, with every operand, decodes back from its code. -/
def Obligations.DecodeOfEncodeIsTheInstruction : Prop :=
  ∀ i : Instr, i.wellFormed = true → decode (encode i) = .instr i

/-- Derived (section 7, R74, and R57 with D5, log 6): what decodes re-encodes to its own first four characters; HALT and the
unrecognized opcodes keep only their opcode character. The three zeros after it are R72's for HALT; for the eight unrecognized
opcodes, for which R72 writes no code, they are the model's choice (DESIGN CHOICE, log 21). -/
def Obligations.EncodeOfDecodeIsTheCode : Prop :=
  ∀ (code : Cell) (i : Instr), decode code = .instr i →
    (keepsEveryField i = true → encode i = code.take 4) ∧
    (keepsEveryField i = false → encode i = code.take 1 ++ ['0', '0', '0'])

/-- Derived (section 2, R61): every decoded field is in its range. -/
def Obligations.DecodedInstructionsAreWellFormed : Prop :=
  ∀ (code : Cell) (i : Instr), decode code = .instr i → i.wellFormed = true

/-- Derived (section 1, R57, decision D5, log 6): characters at positions 4 and beyond change nothing. -/
def Obligations.DecodeIgnoresLaterCharacters : Prop :=
  ∀ code rest : Cell, 4 ≤ code.length → decode (code ++ rest) = decode code

/-- Derived: a code shorter than 4 characters is MALFORMED, the empty string and the reset value among them (section 1, R56);
no other code is (section 6, R71, which the spec derives; for codes longer than 4, R57 with decision D5, DESIGN CHOICE,
log 6). -/
def Obligations.ShortCodesAreMalformed : Prop :=
  (∀ code : Cell, decode code = .malformed ↔ code.length < 4) ∧
  decode [] = .malformed ∧ decode ['0', '0'] = .malformed

/-- Derived (section 2, R58, decisions D2, D4 and D27, log 5): decode checks opcode, register and operand field in this
order, and names the first that is not uppercase hexadecimal. -/
def Obligations.BadDigitsAreNamedInOrder : Prop :=
  ∀ (c0 c1 c2 c3 : Char) (rest : Cell),
    (¬ isDigit c0 → decode (c0 :: c1 :: c2 :: c3 :: rest) = .badValue [c0] .opcode) ∧
    (isDigit c0 → ¬ isDigit c1 → decode (c0 :: c1 :: c2 :: c3 :: rest) = .badValue [c1] .register) ∧
    (isDigit c0 → isDigit c1 → ¬ (isDigit c2 ∧ isDigit c3) →
      decode (c0 :: c1 :: c2 :: c3 :: rest) = .badValue [c2, c3] .operand) ∧
    (isDigit c0 → isDigit c1 → isDigit c2 → isDigit c3 → ∃ i, decode (c0 :: c1 :: c2 :: c3 :: rest) = .instr i)

/-- Derived (sections 2 and 3, R60 and R66; spec/opcode_table.json): the decoder reads from every 16-bit word the row, and
the fields, that the table's bit ranges give. -/
def Obligations.DecoderAgreesWithTheOpcodeTable : Prop :=
  ∀ w : BitVec 16, decodeTableWord 16 w.toNat = some (tableRow w)

/-- Derived (95_test_vectors.md L2.3): worked decodings of the spec. -/
def Obligations.SampleCodesDecode : Prop :=
  decode ['2', '0', '0', '5'] = .instr (.loadImm 0 ['0', '5']) ∧
  decode ['1', '1', '1', '0'] = .instr (.loadMem 1 16) ∧
  decode ['3', 'F', 'F', 'F'] = .instr (.store 15 255) ∧
  decode ['4', '0', '1', '0'] = .instr (.move 0 16) ∧
  decode ['5', '0', '1', '2'] = .instr (.addInt 0 1 2) ∧
  decode ['6', 'F', 'E', 'D'] = .instr (.addFloat 15 14 13) ∧
  decode ['B', '3', '0', '4'] = .instr (.jumpEq 3 4) ∧
  decode ['C', 'F', 'F', 'F'] = .instr .halt ∧
  decode ['A', '1', '2', '3'] = .instr .unrecognizedA

/-! ### The ArithmeticUnit -/

/-- Derived (42_arithmetic.md section 2, R97; "0" for zero is decision D6, log 7): parsing a rendered number gives it back. -/
def Obligations.HexToIntOfIntToHex : Prop :=
  ∀ v : Nat, hexToInt (intToHex v) = some v

/-- Derived (section 1, R96; section 2, R99; decision D6, log 7): a rendered number is uppercase hexadecimal, not empty, and
has no leading zero unless it is "0". -/
def Obligations.IntToHexIsCanonical : Prop :=
  ∀ v : Nat, (∀ c ∈ intToHex v, isDigit c) ∧
    ∃ c cs, intToHex v = c :: cs ∧ (c = '0' → v = 0 ∧ cs = [])

/-- Derived (section 2, R97): rendering a parsed string removes its leading zeros. -/
def Obligations.IntToHexRemovesLeadingZeros : Prop :=
  ∀ (c : Cell) (v : Nat), hexToInt c = some v → intToHex v = withoutLeadingZeros c

/-- Derived (section 1, R95, decisions D2 and D7, logs 5 and 8): a string that is empty or has a character that is no digit
does not parse; any other parses to the sum of its digits by place. -/
def Obligations.HexToIntIsThePositionalSum : Prop :=
  ∀ text : Cell,
    ((text = [] ∨ ∃ d ∈ text, hexDigit d = none) → hexToInt text = none) ∧
    (text ≠ [] → (∀ d ∈ text, isDigit d) →
      hexToInt text = some (∑ i : Fin text.length, (hexDigit text[i]).getD 0 * 16 ^ (text.length - 1 - i)))

/-! ### Access to registers and memory -/

/-- Stated (R20): register access for every integer index: the cell unchanged, the cell overwritten verbatim, or OutOfRange
with no register changed. -/
def Obligations.RegisterAccessContract : Prop :=
  ∀ (s : State) (i : Int) (v : Cell) (op : Op),
    (0 ≤ i → i < 16 → ∃ h : i.toNat < 16,
      regRead s i op = .ok s.x[i.toNat] ∧ regWrite s i v op = .ok { s with x := s.x.set i.toNat v h }) ∧
    (i < 0 ∨ 16 ≤ i →
      regRead s i op = .error (.outOfRange .reg i .read op) ∧
      regWrite s i v op = .error (.outOfRange .reg i .write op) ∧
      finish s (regWrite s i v op) =
        .next { s with status := .faulted, faultRecord := some (.outOfRange .reg i .write op) })

/-- Derived (20_memory.md section 1, R41): memory access for every integer index: a read gives the whole cell; a write changes
that one cell, verbatim, and nothing else; outside 0 to 255 both raise OutOfRange and change no cell. That the memory is in
canonical form before, and after a write again (`m.wf`), is the model's own form and no rule's (DEDUCED, log 2). -/
def Obligations.MemoryAccessContract : Prop :=
  ∀ (s : State) (a : Int) (v : Cell) (op : Op), s.mem.wf →
    (0 ≤ a → a < 256 →
      memRead s a op = .ok (s.mem.read a.toNat) ∧
      ∃ m : Memory, memWrite s a v op = .ok { s with mem := m } ∧ m.wf ∧
        ∀ b : Int, 0 ≤ b → b < 256 →
          memRead { s with mem := m } b op = .ok (if b = a then v else s.mem.read b.toNat)) ∧
    (a < 0 ∨ 256 ≤ a →
      memRead s a op = .error (.outOfRange .mem a .read op) ∧
      memWrite s a v op = .error (.outOfRange .mem a .write op) ∧
      finish s (memWrite s a v op) =
        .next { s with status := .faulted, faultRecord := some (.outOfRange .mem a .write op) })

/-! ### The instructions: result, completion and frame -/

/-- Stated (R90): LOAD-MEM copies the memory cell into the register and changes nothing else; it never raises. -/
def Obligations.LoadMemCopiesTheCell : Prop :=
  ∀ (s : State) (r aa : Nat) (hr : r < 16), aa < 256 →
    decode ('1' :: hexChar r :: hexByte aa) = .instr (.loadMem r aa) ∧
    exec (.loadMem r aa) s = .next { s with x := s.x.set r (s.mem.read aa) }

/-- Stated (R91): LOAD-IMM writes the two operand characters as they stand and changes nothing else. -/
def Obligations.LoadImmWritesTheLiteral : Prop :=
  ∀ (s : State) (r : Nat) (c d : Char) (hr : r < 16), isDigit c → isDigit d →
    decode ['2', hexChar r, c, d] = .instr (.loadImm r [c, d]) ∧
    exec (.loadImm r [c, d]) s = .next { s with x := s.x.set r [c, d] }

/-- Stated (R92): STORE answers a next state in which the cell at `aa` reads as the register and every other cell, and all
other state, is unchanged. -/
def Obligations.StoreWritesOneCell : Prop :=
  ∀ (s : State) (r aa : Nat) (_ : r < 16), aa < 256 → s.mem.wf →
    decode ('3' :: hexChar r :: hexByte aa) = .instr (.store r aa) ∧
    ∃ m : Memory, exec (.store r aa) s = .next { s with mem := m } ∧
      ∀ a : Nat, m.read a = if a = aa then s.x[r] else s.mem.read a

/-- Stated (R93): MOVE copies register `r` into register `aa` for `aa` 0 to 15, and raises OutOfRange for 16 to 255 with no
register changed. -/
def Obligations.MoveCopiesOrRaises : Prop :=
  ∀ (s : State) (r aa : Nat) (_ : r < 16), aa < 256 →
    decode ('4' :: hexChar r :: hexByte aa) = .instr (.move r aa) ∧
    (∀ h : aa < 16, exec (.move r aa) s = .next { s with x := s.x.set aa s.x[r] h }) ∧
    (16 ≤ aa → exec (.move r aa) s =
      .next { s with status := .faulted, faultRecord := some (.outOfRange .reg aa .write .move) })

/-- Stated (R101): ADD-INT. -/
def Obligations.AddIntSumsOrRaises : Prop :=
  AddsAs '5' .addInt .addInt

/-- Stated (R102): ADD-FLOAT is ADD-INT under another opcode, with its own name in the error records. -/
def Obligations.AddFloatSumsOrRaises : Prop :=
  AddsAs '6' .addFloat .addFloat

/-- Derived (section 2, R98, decision D8, log 9): swapping the two sources of an add gives the same result. -/
def Obligations.AddSourcesCommute : Prop :=
  ∀ (st : State) (r s t : Nat) (hs : s < 16) (ht : t < 16), isHexCell st.x[s] = true → isHexCell st.x[t] = true →
    exec (.addInt r s t) st = exec (.addInt r t s) st ∧ exec (.addFloat r s t) st = exec (.addFloat r t s) st

/-- Derived (43_control.md, R104; that "equal" is string equality is decision D9, log 3): JUMP-EQ writes `pc` where the two
cells are the same string, and otherwise changes nothing. -/
def Obligations.JumpEqComparesCells : Prop :=
  ∀ (s : State) (r aa : Nat) (_ : r < 16), aa < 256 →
    decode ('B' :: hexChar r :: hexByte aa) = .instr (.jumpEq r aa) ∧
    (s.x[r] = s.x[0] → exec (.jumpEq r aa) s = .next { s with pc := aa }) ∧
    (s.x[r] ≠ s.x[0] → exec (.jumpEq r aa) s = .next s)

/-- Stated (R105): HALT, whatever its three other digits, sets the status and the cause and changes nothing else; no later
step changes the machine. -/
def Obligations.HaltStopsTheMachine : Prop :=
  ∀ (s : State) (c1 c2 c3 : Char), isDigit c1 → isDigit c2 → isDigit c3 →
    decode ['C', c1, c2, c3] = .instr .halt ∧
    exec .halt s = .next { s with status := .halted, haltCause := some .haltInstruction } ∧
    step { s with status := .halted, haltCause := some .haltInstruction } =
      .next { s with status := .halted, haltCause := some .haltInstruction }

/-- Derived (43_control.md, R107): each of the eight unrecognized opcodes, whatever its three other digits, appends one
diagnostic and changes nothing else. R107 puts the fetched code and `pc - 1` into the event; that the code is read from `ir`,
and that the address is 0 where `pc` is 0, which no fetch leaves, is the model's (DEDUCED, log 22). -/
def Obligations.UnrecognizedOpcodesReport : Prop :=
  ∀ (s : State) (c1 c2 c3 : Char), isDigit c1 → isDigit c2 → isDigit c3 → ∀ row ∈ unrecognizedRows,
    decode [row.1, c1, c2, c3] = .instr row.2 ∧
    exec row.2 s = .next { s with diag := s.diag ++ [.unrecognizedOpcode row.1 s.ir (s.pc - 1)] }

/-- Derived (30_encoding.md section 7, R73, decision D22): what each pseudo-instruction does. -/
def Obligations.PseudoInstructionsMean : Prop :=
  ∀ s : State,
    exec Pseudo.nop.expand s = .next s ∧
    (∀ aa, exec (Pseudo.jump aa).expand s = .next { s with pc := aa }) ∧
    (∀ (r : Nat) (hr : r < 16), exec (Pseudo.clear r).expand s = .next { s with x := s.x.set r ['0', '0'] }) ∧
    (∀ (d r : Nat) (hd : d < 16) (_ : r < 16),
      exec (Pseudo.copy d r).expand s = .next { s with x := s.x.set d s.x[r] }) ∧
    (∀ (r z v : Nat) (hr : r < 16) (_ : z < 16), hexToInt s.x[z] = some 0 → hexToInt s.x[r] = some v →
      exec (Pseudo.canon r z).expand s = .next { s with x := s.x.set r (intToHex v) })

/-- Derived (40_engine.md section 3, R82): the eight ControlUnit operations neither read `ir` nor the diagnostic log, and
leave both as they are. -/
def Obligations.OperationsIgnoreIrAndDiagnostics : Prop :=
  ∀ (i : Instr) (s t : State) (c : Cell) (d : List Event), (∀ row ∈ unrecognizedRows, i ≠ row.2) →
    exec i s = .next t →
    t.ir = s.ir ∧ t.diag = s.diag ∧ exec i { s with ir := c, diag := d } = .next { t with ir := c, diag := d }

/-! ### The engine -/

/-- Derived (40_engine.md sections 1 and 3, R78, R81, R89): a step of a Running machine whose code decodes to `i` is `exec i`
on the state after the fetch. -/
def Obligations.StepRunsTheDecodedInstruction : Prop :=
  ∀ (s : State) (i : Instr), s.status = .running → s.pc < 256 → decode (codeAt s) = .instr i →
    step s = exec i (afterFetch s)

/-- Derived (the model's own interface, log 14): a word placed at `pc` is what the next step runs. -/
def Obligations.StepRunsThePlacedWord : Prop :=
  ∀ (s : State) (w : BitVec 16), s.status = .running → s.pc < 256 → s.mem.wf →
    ∃ i, decodeTableWord 16 w.toNat = some i ∧
      step (s.withFetchWord 16 w.toNat) =
        exec i { s.withFetchWord 16 w.toNat with ir := wordCode w, pc := s.pc + 1 }

/-- Stated (R79): a fetched code shorter than 4 characters halts the machine with a diagnostic; no register or memory cell
changes. -/
def Obligations.ShortCodeHaltsWithDiagnostic : Prop :=
  ∀ s : State, s.status = .running → s.pc < 256 → (codeAt s).length < 4 →
    step s = .next { s with ir := codeAt s, pc := s.pc + 1, status := .halted, haltCause := some .malformedInstruction,
                            diag := s.diag ++ [.malformedInstruction (codeAt s) s.pc] }

/-- Derived (40_engine.md section 2, R80, decisions D2 to D4, log 5): a field that is not uppercase hexadecimal stops the run
with a MalformedValue record; registers, memory and diagnostics are unchanged. -/
def Obligations.BadDigitFaultsAtDecode : Prop :=
  ∀ (s : State) (text : Cell) (site : Site), s.status = .running → s.pc < 256 →
    decode (codeAt s) = .badValue text site →
    step s = .next { s with ir := codeAt s, pc := s.pc + 1, status := .faulted,
                            faultRecord := some (.malformedValue text site .decode) }

/-- Derived (40_engine.md section 1, R77, decision D10, log 11): a fetch past the memory bank raises OutOfRange and leaves
`pc` and `ir`. -/
def Obligations.FetchPastMemoryFaults : Prop :=
  ∀ s : State, s.status = .running → 256 ≤ s.pc →
    step s = .next { s with status := .faulted, faultRecord := some (.outOfRange .mem s.pc .read .fetch) }

/-- Derived (40_engine.md section 4, R87, decision D12; 70 section 1, R129): however often it is stepped, a machine that is
not Running does not change. -/
def Obligations.StoppedMachineNeverChanges : Prop :=
  ∀ (s : State) (n : Nat), s.status ≠ .running → core.run n s = .next s

/-- Derived (60_exceptions.md sections 1 and 2, R110, R114; the model's log 4): no instruction and no step ends in a fault or
a refusal of the model. -/
def Obligations.EveryStepAnswersANextState : Prop :=
  (∀ (i : Instr) (s : State), ∃ t, exec i s = .next t) ∧ ∀ s : State, ∃ t, step s = .next t

/-- Derived (10_state.md sections 4 and 6, R24, R28, R29; the memory's canonical form is the model's, log 2): every step keeps
the invariant. -/
def Obligations.EveryStepKeepsTheInvariant : Prop :=
  ∀ s t : State, s.inv → step s = .next t → t.inv

/-- Derived (as above): the invariant holds at reset. -/
def Obligations.InvariantHoldsAtReset : Prop :=
  State.reset.inv

/-- Stated (R16): every register and every memory cell is "00" at reset. -/
def Obligations.CellsAtReset : Prop :=
  (∀ (n : Nat) (_ : n < 16), State.reset.x[n] = ['0', '0']) ∧ ∀ a : Nat, a < 256 → State.reset.mem.read a = ['0', '0']

/-- Derived (70_reset_and_hazards.md section 1, R127; `ir`, the cause, the record and the log are decisions D11, D13, D14,
D15): the control state at reset. -/
def Obligations.ControlStateAtReset : Prop :=
  State.reset.pc = 0 ∧ State.reset.ir = [] ∧ State.reset.status = .running ∧ State.reset.haltCause = none ∧
  State.reset.faultRecord = none ∧ State.reset.diag = []

/-- Derived (60_exceptions.md section 1, R112; D2, D3): a step of a machine whose cells are all hexadecimal leaves them all
hexadecimal. -/
def Obligations.HexCellsStayHex : Prop :=
  ∀ s t : State, s.hexOnly → step s = .next t → t.hexOnly

/-- Derived (60_exceptions.md section 1, R112; D2, D3): a machine whose cells are all hexadecimal never raises MalformedValue,
however long it runs. -/
def Obligations.HexProgramsNeverRaiseMalformedValue : Prop :=
  ∀ (s t : State) (n : Nat), s.hexOnly → s.noMalformedValue → core.run n s = .next t → t.noMalformedValue

/-- Derived (60_exceptions.md section 1, R111): the only OutOfRange records a step makes are the fetch past memory and a MOVE
to 16 to 255. -/
def Obligations.ReachableOutOfRangeRecords : Prop :=
  ∀ (s t : State) (space : Space) (index : Int) (access : Access) (op : Op),
    s.status = .running → s.faultRecord = none → step s = .next t →
    t.faultRecord = some (.outOfRange space index access op) →
    (space = .mem ∧ index = s.pc ∧ access = .read ∧ op = .fetch ∧ 256 ≤ s.pc) ∨
    (space = .reg ∧ access = .write ∧ op = .move ∧
      ∃ r aa : Nat, decode (codeAt s) = .instr (.move r aa) ∧ index = aa ∧ 16 ≤ aa ∧ aa < 256)

/-- Derived (40_engine.md section 4, R85; MalformedValue as a stop is decision D3): a run ends in exactly four ways. -/
def Obligations.RunEndsInFourWays : Prop :=
  ∀ s t : State, s.status = .running → step s = .next t → t.status ≠ .running →
    (t.status = .halted ∧ t.haltCause = some .haltInstruction ∧ decode (codeAt s) = .instr .halt) ∨
    (t.status = .halted ∧ t.haltCause = some .malformedInstruction ∧ (codeAt s).length < 4) ∨
    (t.status = .faulted ∧ ∃ space index access op, t.faultRecord = some (.outOfRange space index access op)) ∨
    (t.status = .faulted ∧ ∃ text site op, t.faultRecord = some (.malformedValue text site op))

/-- Derived (40_engine.md section 4, R86; a failed fetch is decision D10): the step that ends a run changes no register and no
memory cell, and of `pc`, `ir` and the log only what its fetch and the malformed-instruction diagnostic write. -/
def Obligations.StopsArePrecise : Prop :=
  ∀ s t : State, s.status = .running → step s = .next t → t.status ≠ .running →
    t.x = s.x ∧ t.mem = s.mem ∧
    (s.pc < 256 → t.pc = s.pc + 1 ∧ t.ir = codeAt s ∧ (4 ≤ (codeAt s).length → t.diag = s.diag)) ∧
    (256 ≤ s.pc → t.pc = s.pc ∧ t.ir = s.ir ∧ t.diag = s.diag)

/-- Derived (10_state.md section 4, R23; 43_control.md, R108; D9, D10): `pc` is advanced by one by every fetch and overwritten
by a taken JUMP-EQ only. -/
def Obligations.OnlyFetchAndJumpWritePc : Prop :=
  ∀ s t : State, s.status = .running → step s = .next t →
    (256 ≤ s.pc → t.pc = s.pc) ∧
    (s.pc < 256 →
      (∀ r aa, decode (codeAt s) = .instr (.jumpEq r aa) →
        ∃ _ : r < 16, t.pc = if s.x[r] = s.x[0] then aa else s.pc + 1) ∧
      ((∀ r aa, decode (codeAt s) ≠ .instr (.jumpEq r aa)) → t.pc = s.pc + 1))

/-- Derived (10_state.md section 5, R26; D10): `ir` is written by a successful fetch only, with the whole string fetched. -/
def Obligations.OnlyFetchWritesIr : Prop :=
  ∀ s t : State, s.status = .running → step s = .next t → t.ir = if s.pc < 256 then codeAt s else s.ir

/-- Derived (10_state.md section 7, R31, decision D13, log 12): a step only appends to the diagnostic log, and exactly the
event its code calls for. -/
def Obligations.DiagnosticsAreAppended : Prop :=
  ∀ s t : State, s.status = .running → step s = .next t →
    t.diag = s.diag ++ (if s.pc < 256 then diagnosticsOf (codeAt s) s.pc else [])

/-- Derived (20_memory.md section 1, R40): of all steps, only a STORE's changes a memory cell, and only the cell it names. -/
def Obligations.OnlyStoreWritesMemory : Prop :=
  ∀ s t : State, s.status = .running → s.mem.wf → step s = .next t →
    (256 ≤ s.pc → t.mem = s.mem) ∧
    (s.pc < 256 →
      (∀ r aa, decode (codeAt s) = .instr (.store r aa) →
        ∃ _ : r < 16, ∀ a, t.mem.read a = if a = aa then s.x[r] else s.mem.read a) ∧
      ((∀ r aa, decode (codeAt s) ≠ .instr (.store r aa)) → t.mem = s.mem))

/-- Derived (10_state.md section 3, R22): a step changes no register but the destination its instruction names. -/
def Obligations.OnlyTheDestinationRegisterChanges : Prop :=
  ∀ (s t : State) (n : Nat) (_ : n < 16), s.status = .running → step s = .next t →
    (∀ i, s.pc < 256 → decode (codeAt s) = .instr i → destinationOf i ≠ some n) → t.x[n] = s.x[n]

/-- Derived (20_memory.md section 4, R52): a cell stored over the next code is what the next step fetches, halts on or runs. -/
def Obligations.StoredCodeIsFetchedNext : Prop :=
  ∀ (s : State) (r : Nat), s.status = .running → s.mem.wf → s.pc + 1 < 256 →
    decode (codeAt s) = .instr (.store r (s.pc + 1)) →
    ∃ (_ : r < 16) (t : State), step s = .next t ∧ t.status = .running ∧ t.pc = s.pc + 1 ∧ codeAt t = s.x[r] ∧
      (s.x[r].length < 4 → ∃ u, step t = .next u ∧ u.status = .halted ∧ u.haltCause = some .malformedInstruction) ∧
      (∀ i, decode s.x[r] = .instr i → step t = exec i (afterFetch t))

/-- Derived (40_engine.md section 4, R88): a jump to itself whose condition holds runs for ever, Running at every step. -/
def Obligations.SelfJumpNeverEnds : Prop :=
  ∀ (s : State) (r : Nat) (_ : r < 16), s.status = .running → s.pc < 256 → s.x[r] = s.x[0] →
    decode (codeAt s) = .instr (.jumpEq r s.pc) → ∀ n : Nat, core.run (n + 1) s = .next { s with ir := codeAt s }

/-! ### The host's operations -/

/-- Derived (10_state.md section 9, R34; 40_engine.md section 4, R88, decision D26, log 16): `run` returns only a machine that
is not Running, reached by repeated steps, and exhausts its budget only while still Running. -/
def Obligations.RunIsRepeatedStep : Prop :=
  ∀ (budget : Nat) (s : State),
    (∃ t k, runCall budget s = .ended t ∧ k ≤ budget ∧ core.run k s = .next t ∧ t.status ≠ .running) ∨
    (∃ t, runCall budget s = .budgetExhausted t ∧ core.run budget s = .next t ∧ t.status = .running)

/-- Derived (as above): a run that returns, returns the same machine under every larger budget. -/
def Obligations.RunResultIsBudgetIndependent : Prop :=
  ∀ (budget more : Nat) (s t : State), runCall budget s = .ended t → runCall (budget + more) s = .ended t

/-- Derived (70_reset_and_hazards.md section 2, R131, decision D23): a load writes the first 256 tokens from address 0 and
nothing else. That it leaves the memory in canonical form (`m.wf`) is about the model's own form (DEDUCED, log 2). -/
def Obligations.LoadWritesTheProgram : Prop :=
  ∀ program : List Cell, ∃ m : Memory, load program .success State.reset = .next { State.reset with mem := m } ∧
    m.wf ∧ ∀ a : Nat, a < 256 → m.read a = program.getD a ['0', '0']

/-- Derived (section 2, R133, decision D24): a failed load leaves the tokens before the failure and "00" elsewhere, and the
machine Running. That it leaves the memory in canonical form (`m.wf`) is about the model's own form (DEDUCED, log 2). -/
def Obligations.FailedLoadKeepsThePrefix : Prop :=
  ∀ (program : List Cell) (k : Nat), ∃ m : Memory,
    load program (.failureAfter k) State.reset = .next { State.reset with mem := m } ∧
    m.wf ∧ ∀ a : Nat, a < 256 → m.read a = if a < k then program.getD a ['0', '0'] else ['0', '0']

/-- Derived (section 2, R135, decision D23; the test of "has stepped" is the model's, log 15): a machine that has executed a
step refuses a load. -/
def Obligations.LoadAfterAStepIsRefused : Prop :=
  ∀ (s t : State) (program : List Cell) (outcome : LoadOutcome), step s = .next t →
    load program outcome t = .refused .loadAfterStep

/-- Derived (section 3, R134): a machine run without a program halts at its first step with MALFORMED_INSTRUCTION. -/
def Obligations.EmptyMachineHaltsAtOnce : Prop :=
  step State.reset = .next { State.reset with ir := ['0', '0'], pc := 1, status := .halted,
                                              haltCause := some .malformedInstruction,
                                              diag := [.malformedInstruction ['0', '0'] 0] }

/-- Derived (10_state.md section 9, R35 and R36, decision D16, log 17): a snapshot and the two displays show every cell at its
own address, in ascending order, and the control state. -/
def Obligations.SnapshotShowsTheWholeState : Prop :=
  ∀ s : State,
    (snapshot s).pc = s.pc ∧ (snapshot s).ir = s.ir ∧ (snapshot s).diag = s.diag ∧
    (snapshot s).report = ⟨s.status, s.haltCause, s.faultRecord⟩ ∧
    (snapshot s).registers.length = 16 ∧ (snapshot s).memory.length = 256 ∧
    (displayRegisters s).length = 16 ∧ (displayMemory s).length = 256 ∧
    (∀ (n : Nat) (_ : n < 16), (snapshot s).registers[n]? = some s.x[n] ∧ (displayRegisters s)[n]? = some (n, s.x[n])) ∧
    (∀ a : Nat, a < 256 → (snapshot s).memory[a]? = some (s.mem.read a) ∧ (displayMemory s)[a]? = some (a, s.mem.read a))
end

