-- ==== Sys2Proof/Laws/Hex.lean ====
section
/-!
SUPPORT. The hexadecimal digits: value and character are inverse to each other, and the opcode table accepts exactly the
digits of `hexAlphabet`.
-/

namespace Sys2Proof.Machine

@[simp] theorem hexDigit_hexChar (d : Nat) : hexDigit (hexChar d) = some (d % 16) := by
  have distinct : ∀ k : Fin 16, hexDigit hexAlphabet[k.val] = some k.val := by decide
  exact distinct ⟨d % 16, Nat.mod_lt d (by decide)⟩

/-- A digit's value is below 16, and the digit is that value's character. -/
theorem hexDigit_some {c : Char} {d : Nat} (h : hexDigit c = some d) : d < 16 ∧ hexChar d = c := by
  obtain ⟨hd, hc, -⟩ := List.idxOf?_eq_some_iff.mp h
  have small : d < 16 := hd
  exact ⟨small, by simpa only [hexChar, Nat.mod_eq_of_lt small] using hc⟩

/-- The characters without a value are those outside the alphabet. -/
theorem hexDigit_none_iff (c : Char) : hexDigit c = none ↔ c ∉ hexAlphabet :=
  List.idxOf?_eq_none_iff

theorem hexChar_isDigit (d : Nat) : (hexDigit (hexChar d)).isSome = true := by simp

end Sys2Proof.Machine

namespace Sys2Proof

@[simp] theorem ofChar_toChar (op : Opcode) : Opcode.ofChar op.toChar = some op := by
  cases op <;> rfl

theorem ofChar_some {c : Char} {op : Opcode} (h : Opcode.ofChar c = some op) : op.toChar = c := by
  unfold Opcode.ofChar at h
  split at h <;> simp at h <;> subst h <;> rfl

/-- The opcode check of R58 is the digit check: the same sixteen characters pass. -/
theorem ofChar_none_iff (c : Char) : Opcode.ofChar c = none ↔ Machine.hexDigit c = none := by
  rw [Machine.hexDigit_none_iff]
  unfold Opcode.ofChar Machine.hexAlphabet
  split <;> simp_all

@[simp] theorem opcode_opcodeMap (op : Opcode) (f : Fields) : (opcodeMap op f).opcode = op := by
  cases op <;> rfl

end Sys2Proof
end

