-- ==== Sys2Proof/Laws/Decode.lean ====
section
/-!
SUPPORT. What decode can answer, said once: one lemma per answer.
-/

namespace Sys2Proof

/-- A code of at least four characters is its first four and a rest. -/
theorem four_of_length {code : Cell} (h : 4 ≤ code.length) :
    ∃ c0 c1 c2 c3 rest, code = c0 :: c1 :: c2 :: c3 :: rest := by
  rcases code with _ | ⟨c0, _ | ⟨c1, _ | ⟨c2, _ | ⟨c3, rest⟩⟩⟩⟩
  · simp at h
  · simp at h
  · simp at h
  · simp at h
  · exact ⟨c0, c1, c2, c3, rest, rfl⟩

/-- The fields decode forms from four characters that passed its checks. -/
theorem decode_fields {c0 c1 c2 c3 : Char} {rest : Cell} {op : Opcode} {r s t : Nat} (h0 : Opcode.ofChar c0 = some op)
    (h1 : Machine.hexDigit c1 = some r) (h2 : Machine.hexDigit c2 = some s) (h3 : Machine.hexDigit c3 = some t) :
    decode (c0 :: c1 :: c2 :: c3 :: rest) = .instr (opcodeMap op ⟨r, 16 * s + t, [c2, c3], s, t⟩) := by
  simp [decode, h0, h1, h2, h3]

/-- Where decode answers an instruction, the code begins with four digits and the instruction is the opcode map's. -/
theorem decode_instr_cases {code : Cell} {i : Instr} (h : decode code = .instr i) :
    ∃ c0 c1 c2 c3 rest op r s t, code = c0 :: c1 :: c2 :: c3 :: rest ∧ Opcode.ofChar c0 = some op ∧
      Machine.hexDigit c1 = some r ∧ Machine.hexDigit c2 = some s ∧ Machine.hexDigit c3 = some t ∧
      i = opcodeMap op ⟨r, 16 * s + t, [c2, c3], s, t⟩ := by
  unfold decode at h
  split at h
  · next c0 c1 c2 c3 rest =>
    split at h
    · cases h
    · next op h0 =>
      split at h
      · cases h
      · next r h1 =>
        split at h
        · next s t h2 h3 =>
          cases h
          exact ⟨c0, c1, c2, c3, rest, op, r, s, t, rfl, h0, h1, h2, h3, rfl⟩
        · cases h
  · cases h

/-- A code that decode answers with anything but MALFORMED has at least four characters. -/
theorem length_of_not_malformed {code : Cell} (h : decode code ≠ .malformed) : 4 ≤ code.length := by
  rcases code with _ | ⟨c0, _ | ⟨c1, _ | ⟨c2, _ | ⟨c3, rest⟩⟩⟩⟩
  · exact absurd rfl h
  · exact absurd rfl h
  · exact absurd rfl h
  · exact absurd rfl h
  · simp

end Sys2Proof
end

