-- ==== Sys2Proof/Laws/Memory.lean ====
section
/-!
SUPPORT. The memory bank: what an unlisted address reads as, that every memory operation keeps the canonical form, and what a
read after a write gives.
-/

namespace Sys2Proof.Machine

@[simp] theorem read_nil (a : Nat) : Memory.read [] a = Config.initialCell := rfl

theorem read_cons (b : Nat) (v : Cell) (m : Memory) (a : Nat) :
    Memory.read ((b, v) :: m) a = if a = b then v else Memory.read m a := rfl

theorem read_of_not_listed {m : Memory} {a : Nat} (h : ∀ p ∈ m, p.1 ≠ a) : Memory.read m a = Config.initialCell := by
  induction m with
  | nil => rfl
  | cons p rest ih =>
    obtain ⟨b, v⟩ := p
    have hb : a ≠ b := fun e => h (b, v) (by simp) e.symm
    rw [read_cons, if_neg hb]
    exact ih fun q hq => h q (List.mem_cons_of_mem _ hq)

theorem read_listed_or_initial (m : Memory) (a : Nat) : (a, Memory.read m a) ∈ m ∨ Memory.read m a = Config.initialCell := by
  induction m with
  | nil => exact Or.inr rfl
  | cons p rest ih =>
    obtain ⟨b, v⟩ := p
    rw [read_cons]
    split
    · next e => subst e; exact Or.inl (by simp)
    · rcases ih with ih | ih
      · exact Or.inl (List.mem_cons_of_mem _ ih)
      · exact Or.inr ih

theorem wf_nil : Memory.wf [] := by simp [Memory.wf]

theorem wf_tail {p : Nat × Cell} {m : Memory} (h : Memory.wf (p :: m)) : m.wf :=
  ⟨(List.pairwise_cons.1 h.1).2, fun q hq => h.2 q (List.mem_cons_of_mem _ hq)⟩

theorem wf_head_lt {p : Nat × Cell} {m : Memory} (h : Memory.wf (p :: m)) : ∀ q ∈ m, p.1 < q.1 :=
  (List.pairwise_cons.1 h.1).1

theorem wf_of_cons {a : Nat} {v : Cell} {m : Memory} (hm : m.wf) (ha : a < Config.nmem) (hlt : ∀ q ∈ m, a < q.1) :
    (Memory.cons a v m).wf := by
  unfold Memory.cons
  split
  · exact hm
  · next hv =>
    refine ⟨List.pairwise_cons.2 ⟨hlt, hm.1⟩, ?_⟩
    intro p hp
    rcases List.mem_cons.1 hp with rfl | hp
    · exact ⟨ha, hv⟩
    · exact hm.2 p hp

theorem read_of_cons {a : Nat} {v : Cell} {m : Memory} (hlt : ∀ q ∈ m, a < q.1) (b : Nat) :
    (Memory.cons a v m).read b = if b = a then v else m.read b := by
  unfold Memory.cons
  split
  · next hv =>
    split
    · next e => subst e; rw [hv]; exact read_of_not_listed fun q hq => by have := hlt q hq; omega
    · rfl
  · exact read_cons a v m b

theorem mem_cons_iff_of_cons {a : Nat} {v : Cell} {m : Memory} {p : Nat × Cell} (h : p ∈ Memory.cons a v m) :
    p = (a, v) ∨ p ∈ m := by
  unfold Memory.cons at h
  split at h
  · exact Or.inr h
  · exact List.mem_cons.1 h

/-- Every entry after a write is the written one or was there before. -/
theorem mem_write {m : Memory} {a : Nat} {v : Cell} {p : Nat × Cell} (h : p ∈ m.write a v) : p = (a, v) ∨ p ∈ m := by
  induction m with
  | nil => exact mem_cons_iff_of_cons h
  | cons q rest ih =>
    obtain ⟨b, w⟩ := q
    unfold Memory.write at h
    split at h
    · exact mem_cons_iff_of_cons h
    · split at h
      · rcases mem_cons_iff_of_cons h with h | h
        · exact Or.inl h
        · exact Or.inr (List.mem_cons_of_mem _ h)
      · rcases List.mem_cons.1 h with h | h
        · exact Or.inr (by simp [h])
        · rcases ih h with h | h
          · exact Or.inl h
          · exact Or.inr (List.mem_cons_of_mem _ h)

/-- A write keeps the canonical form. -/
theorem write_wf {m : Memory} (hm : m.wf) {a : Nat} (ha : a < Config.nmem) (v : Cell) : (m.write a v).wf := by
  induction m with
  | nil => exact wf_of_cons hm ha (by simp)
  | cons p rest ih =>
    obtain ⟨b, w⟩ := p
    have hlt := wf_head_lt hm
    unfold Memory.write
    split
    · next hab =>
      refine wf_of_cons hm ha fun q hq => ?_
      rcases List.mem_cons.1 hq with rfl | hq
      · exact hab
      · exact Nat.lt_trans hab (hlt q hq)
    · split
      · next e => subst e; exact wf_of_cons (wf_tail hm) ha hlt
      · have hr := ih (wf_tail hm)
        refine ⟨List.pairwise_cons.2 ⟨?_, hr.1⟩, ?_⟩
        · intro q hq
          rcases mem_write hq with rfl | hq
          · show b < a; omega
          · exact hlt q hq
        · intro q hq
          rcases List.mem_cons.1 hq with rfl | hq
          · exact hm.2 (b, w) (by simp)
          · exact hr.2 q hq

/-- Reading after a write: the written cell at its address, every other cell as before. -/
theorem read_write {m : Memory} (hm : m.wf) (a : Nat) (v : Cell) (b : Nat) :
    (m.write a v).read b = if b = a then v else m.read b := by
  induction m with
  | nil => exact read_of_cons (by simp) b
  | cons p rest ih =>
    obtain ⟨c, w⟩ := p
    have hlt := wf_head_lt hm
    unfold Memory.write
    split
    · next hac =>
      refine read_of_cons (fun q hq => ?_) b
      rcases List.mem_cons.1 hq with rfl | hq
      · exact hac
      · exact Nat.lt_trans hac (hlt q hq)
    · split
      · next e =>
        subst e
        rw [read_of_cons hlt b, read_cons]
        split <;> rfl
      · next hne =>
        rw [read_cons, ih (wf_tail hm), read_cons]
        split
        · next e => subst e; rw [if_neg (fun e => hne e.symm)]
        · rfl

/-- Writing cells to ascending addresses keeps the canonical form while they are in range. -/
theorem writeFrom_wf {cells : List Cell} : ∀ {m : Memory} {a : Nat}, m.wf → a + cells.length ≤ Config.nmem →
    (m.writeFrom a cells).wf := by
  induction cells with
  | nil => intro m a hm _; exact hm
  | cons c cs ih =>
    intro m a hm ha
    simp only [List.length_cons] at ha
    exact ih (write_wf hm (by omega) c) (by omega)

theorem writtenTokens_length (program : List Cell) (o : LoadOutcome) :
    (writtenTokens program o).length ≤ Config.nmem := by
  cases o <;> simp [writtenTokens]

end Sys2Proof.Machine
end

