-- ==== Sys2Proof/Laws/State.lean ====
section
/-!
SUPPORT. What each update of the state does to each field, one lemma per field per update, and what each field is after reset.
-/

namespace Sys2Proof.Machine

@[simp] theorem withX_x (s : State) (y : RegFile) : (s.withX y).x = y := rfl
@[simp] theorem withX_mem (s : State) (y : RegFile) : (s.withX y).mem = s.mem := rfl
@[simp] theorem withX_pc (s : State) (y : RegFile) : (s.withX y).pc = s.pc := rfl
@[simp] theorem withX_ir (s : State) (y : RegFile) : (s.withX y).ir = s.ir := rfl
@[simp] theorem withX_status (s : State) (y : RegFile) : (s.withX y).status = s.status := rfl
@[simp] theorem withX_haltCause (s : State) (y : RegFile) : (s.withX y).haltCause = s.haltCause := rfl
@[simp] theorem withX_faultRecord (s : State) (y : RegFile) : (s.withX y).faultRecord = s.faultRecord := rfl
@[simp] theorem withX_diag (s : State) (y : RegFile) : (s.withX y).diag = s.diag := rfl

@[simp] theorem withMem_x (s : State) (m : Memory) : (s.withMem m).x = s.x := rfl
@[simp] theorem withMem_mem (s : State) (m : Memory) : (s.withMem m).mem = m := rfl
@[simp] theorem withMem_pc (s : State) (m : Memory) : (s.withMem m).pc = s.pc := rfl
@[simp] theorem withMem_ir (s : State) (m : Memory) : (s.withMem m).ir = s.ir := rfl
@[simp] theorem withMem_status (s : State) (m : Memory) : (s.withMem m).status = s.status := rfl
@[simp] theorem withMem_haltCause (s : State) (m : Memory) : (s.withMem m).haltCause = s.haltCause := rfl
@[simp] theorem withMem_faultRecord (s : State) (m : Memory) : (s.withMem m).faultRecord = s.faultRecord := rfl
@[simp] theorem withMem_diag (s : State) (m : Memory) : (s.withMem m).diag = s.diag := rfl

@[simp] theorem withPc_x (s : State) (t : Nat) : (s.withPc t).x = s.x := rfl
@[simp] theorem withPc_mem (s : State) (t : Nat) : (s.withPc t).mem = s.mem := rfl
@[simp] theorem withPc_pc (s : State) (t : Nat) : (s.withPc t).pc = t := rfl
@[simp] theorem withPc_ir (s : State) (t : Nat) : (s.withPc t).ir = s.ir := rfl
@[simp] theorem withPc_status (s : State) (t : Nat) : (s.withPc t).status = s.status := rfl
@[simp] theorem withPc_haltCause (s : State) (t : Nat) : (s.withPc t).haltCause = s.haltCause := rfl
@[simp] theorem withPc_faultRecord (s : State) (t : Nat) : (s.withPc t).faultRecord = s.faultRecord := rfl
@[simp] theorem withPc_diag (s : State) (t : Nat) : (s.withPc t).diag = s.diag := rfl

@[simp] theorem withIr_x (s : State) (c : Cell) : (s.withIr c).x = s.x := rfl
@[simp] theorem withIr_mem (s : State) (c : Cell) : (s.withIr c).mem = s.mem := rfl
@[simp] theorem withIr_pc (s : State) (c : Cell) : (s.withIr c).pc = s.pc := rfl
@[simp] theorem withIr_ir (s : State) (c : Cell) : (s.withIr c).ir = c := rfl
@[simp] theorem withIr_status (s : State) (c : Cell) : (s.withIr c).status = s.status := rfl
@[simp] theorem withIr_haltCause (s : State) (c : Cell) : (s.withIr c).haltCause = s.haltCause := rfl
@[simp] theorem withIr_faultRecord (s : State) (c : Cell) : (s.withIr c).faultRecord = s.faultRecord := rfl
@[simp] theorem withIr_diag (s : State) (c : Cell) : (s.withIr c).diag = s.diag := rfl

@[simp] theorem emit_x (e : Event) (s : State) : (emit e s).x = s.x := rfl
@[simp] theorem emit_mem (e : Event) (s : State) : (emit e s).mem = s.mem := rfl
@[simp] theorem emit_pc (e : Event) (s : State) : (emit e s).pc = s.pc := rfl
@[simp] theorem emit_ir (e : Event) (s : State) : (emit e s).ir = s.ir := rfl
@[simp] theorem emit_status (e : Event) (s : State) : (emit e s).status = s.status := rfl
@[simp] theorem emit_haltCause (e : Event) (s : State) : (emit e s).haltCause = s.haltCause := rfl
@[simp] theorem emit_faultRecord (e : Event) (s : State) : (emit e s).faultRecord = s.faultRecord := rfl
@[simp] theorem emit_diag (e : Event) (s : State) : (emit e s).diag = s.diag ++ [e] := rfl

@[simp] theorem halt_x (h : HaltCause) (s : State) : (halt h s).x = s.x := rfl
@[simp] theorem halt_mem (h : HaltCause) (s : State) : (halt h s).mem = s.mem := rfl
@[simp] theorem halt_pc (h : HaltCause) (s : State) : (halt h s).pc = s.pc := rfl
@[simp] theorem halt_ir (h : HaltCause) (s : State) : (halt h s).ir = s.ir := rfl
@[simp] theorem halt_status (h : HaltCause) (s : State) : (halt h s).status = .halted := rfl
@[simp] theorem halt_haltCause (h : HaltCause) (s : State) : (halt h s).haltCause = some h := rfl
@[simp] theorem halt_faultRecord (h : HaltCause) (s : State) : (halt h s).faultRecord = s.faultRecord := rfl
@[simp] theorem halt_diag (h : HaltCause) (s : State) : (halt h s).diag = s.diag := rfl

@[simp] theorem raise_x (f : FaultRecord) (s : State) : (raise f s).x = s.x := rfl
@[simp] theorem raise_mem (f : FaultRecord) (s : State) : (raise f s).mem = s.mem := rfl
@[simp] theorem raise_pc (f : FaultRecord) (s : State) : (raise f s).pc = s.pc := rfl
@[simp] theorem raise_ir (f : FaultRecord) (s : State) : (raise f s).ir = s.ir := rfl
@[simp] theorem raise_status (f : FaultRecord) (s : State) : (raise f s).status = .faulted := rfl
@[simp] theorem raise_haltCause (f : FaultRecord) (s : State) : (raise f s).haltCause = s.haltCause := rfl
@[simp] theorem raise_faultRecord (f : FaultRecord) (s : State) : (raise f s).faultRecord = some f := rfl
@[simp] theorem raise_diag (f : FaultRecord) (s : State) : (raise f s).diag = s.diag := rfl

@[simp] theorem fetched_x (c : Cell) (s : State) : (fetched c s).x = s.x := rfl
@[simp] theorem fetched_mem (c : Cell) (s : State) : (fetched c s).mem = s.mem := rfl
@[simp] theorem fetched_pc (c : Cell) (s : State) : (fetched c s).pc = s.pc + 1 := rfl
@[simp] theorem fetched_ir (c : Cell) (s : State) : (fetched c s).ir = c := rfl
@[simp] theorem fetched_status (c : Cell) (s : State) : (fetched c s).status = s.status := rfl
@[simp] theorem fetched_haltCause (c : Cell) (s : State) : (fetched c s).haltCause = s.haltCause := rfl
@[simp] theorem fetched_faultRecord (c : Cell) (s : State) : (fetched c s).faultRecord = s.faultRecord := rfl
@[simp] theorem fetched_diag (c : Cell) (s : State) : (fetched c s).diag = s.diag := rfl

@[simp] theorem reset_mem : State.reset.mem = [] := rfl
@[simp] theorem reset_pc : State.reset.pc = 0 := rfl
@[simp] theorem reset_ir : State.reset.ir = [] := rfl
@[simp] theorem reset_status : State.reset.status = .running := rfl
@[simp] theorem reset_haltCause : State.reset.haltCause = none := rfl
@[simp] theorem reset_faultRecord : State.reset.faultRecord = none := rfl
@[simp] theorem reset_diag : State.reset.diag = [] := rfl

@[simp] theorem reset_x (n : Nat) (h : n < Config.nreg) : State.reset.x[n] = Config.initialCell := by
  simp [State.reset]

end Sys2Proof.Machine
end

