-- ==== Sys2Proof/Laws/Ops.lean ====
section
/-!
SUPPORT. What each shared operation can do, said once: its answer where the index is in range, its record where it is not,
and, backwards, what an answer says about the state.
-/

namespace Sys2Proof.Machine

/-- The index test is the accessor contract's: `0 <= i` and `i < cap`. -/
theorem inRange_iff (i : Int) (cap : Nat) : inRange i cap = true ↔ 0 ≤ i ∧ i < (cap : Int) := by
  cases i with
  | ofNat n => simp [inRange]
  | negSucc n => simp [inRange]

theorem inRange_ofNat {n cap : Nat} : inRange (n : Int) cap = true ↔ n < cap := by
  simp [inRange_iff]

theorem not_inRange_ofNat {n cap : Nat} (h : cap ≤ n) : ¬ inRange (n : Int) cap = true :=
  fun e => absurd (inRange_ofNat.1 e) (Nat.not_lt.2 h)

theorem regRead_ok {s : State} {n : Nat} (h : n < Config.nreg) (op : Op) : regRead s (n : Int) op = .ok (s.x[n]'h) :=
  dif_pos (inRange_ofNat.2 h)

theorem regRead_error {s : State} {n : Nat} (h : Config.nreg ≤ n) (op : Op) :
    regRead s (n : Int) op = .error (.outOfRange .reg n .read op) :=
  dif_neg (not_inRange_ofNat h)

theorem regWrite_ok {s : State} {n : Nat} (h : n < Config.nreg) (v : Cell) (op : Op) :
    regWrite s (n : Int) v op = .ok (s.withX (s.x.set n v h)) :=
  dif_pos (inRange_ofNat.2 h)

theorem regWrite_error {s : State} {n : Nat} (h : Config.nreg ≤ n) (v : Cell) (op : Op) :
    regWrite s (n : Int) v op = .error (.outOfRange .reg n .write op) :=
  dif_neg (not_inRange_ofNat h)

theorem memRead_ok {s : State} {n : Nat} (h : n < Config.nmem) (op : Op) : memRead s (n : Int) op = .ok (s.mem.read n) :=
  if_pos (inRange_ofNat.2 h)

theorem memRead_error {s : State} {n : Nat} (h : Config.nmem ≤ n) (op : Op) :
    memRead s (n : Int) op = .error (.outOfRange .mem n .read op) :=
  if_neg (not_inRange_ofNat h)

theorem memWrite_ok {s : State} {n : Nat} (h : n < Config.nmem) (v : Cell) (op : Op) :
    memWrite s (n : Int) v op = .ok (s.withMem (s.mem.write n v)) :=
  if_pos (inRange_ofNat.2 h)

theorem memWrite_error {s : State} {n : Nat} (h : Config.nmem ≤ n) (v : Cell) (op : Op) :
    memWrite s (n : Int) v op = .error (.outOfRange .mem n .write op) :=
  if_neg (not_inRange_ofNat h)

/-- A register write that answers was in range and wrote that one cell; one that raises was out of range. -/
theorem regWrite_cases (s : State) (n : Nat) (v : Cell) (op : Op) :
    (∃ h : n < Config.nreg, regWrite s (n : Int) v op = .ok (s.withX (s.x.set n v h))) ∨
      (Config.nreg ≤ n ∧ regWrite s (n : Int) v op = .error (.outOfRange .reg n .write op)) := by
  rcases Nat.lt_or_ge n Config.nreg with h | h
  · exact Or.inl ⟨h, regWrite_ok h v op⟩
  · exact Or.inr ⟨h, regWrite_error h v op⟩

theorem regRead_cases (s : State) (n : Nat) (op : Op) :
    (∃ h : n < Config.nreg, regRead s (n : Int) op = .ok (s.x[n]'h)) ∨
      (Config.nreg ≤ n ∧ regRead s (n : Int) op = .error (.outOfRange .reg n .read op)) := by
  rcases Nat.lt_or_ge n Config.nreg with h | h
  · exact Or.inl ⟨h, regRead_ok h op⟩
  · exact Or.inr ⟨h, regRead_error h op⟩

theorem memRead_cases (s : State) (n : Nat) (op : Op) :
    (n < Config.nmem ∧ memRead s (n : Int) op = .ok (s.mem.read n)) ∨
      (Config.nmem ≤ n ∧ memRead s (n : Int) op = .error (.outOfRange .mem n .read op)) := by
  rcases Nat.lt_or_ge n Config.nmem with h | h
  · exact Or.inl ⟨h, memRead_ok h op⟩
  · exact Or.inr ⟨h, memRead_error h op⟩

theorem memWrite_cases (s : State) (n : Nat) (v : Cell) (op : Op) :
    (n < Config.nmem ∧ memWrite s (n : Int) v op = .ok (s.withMem (s.mem.write n v))) ∨
      (Config.nmem ≤ n ∧ memWrite s (n : Int) v op = .error (.outOfRange .mem n .write op)) := by
  rcases Nat.lt_or_ge n Config.nmem with h | h
  · exact Or.inl ⟨h, memWrite_ok h v op⟩
  · exact Or.inr ⟨h, memWrite_error h v op⟩

/-- A parse answers the value or raises MalformedValue with the whole cell. -/
theorem parseHex_cases (c : Cell) (site : Site) (op : Op) :
    (∃ v, hexToInt c = some v ∧ parseHex c site op = .ok v) ∨
      (hexToInt c = none ∧ parseHex c site op = .error (.malformedValue c site op)) := by
  unfold parseHex
  cases h : hexToInt c with
  | none => exact Or.inr ⟨rfl, rfl⟩
  | some v => exact Or.inl ⟨v, rfl, rfl⟩

/-- A fetch answers with the cell at `pc` in `ir` and `pc` advanced, or raises at a `pc` past the memory bank. -/
theorem fetch_cases (s : State) :
    (s.pc < Config.nmem ∧ fetch s = .ok (fetched (s.mem.read s.pc) s)) ∨
      (Config.nmem ≤ s.pc ∧ fetch s = .error (.outOfRange .mem s.pc .read .fetch)) := by
  unfold fetch
  rcases memRead_cases s s.pc .fetch with ⟨h, e⟩ | ⟨h, e⟩
  · exact Or.inl ⟨h, by rw [e]⟩
  · exact Or.inr ⟨h, by rw [e]⟩

@[simp] theorem finish_ok (s t : State) : finish s (.ok t) = .next t := rfl
@[simp] theorem finish_error (s : State) (f : FaultRecord) : finish s (.error f) = .next (raise f s) := rfl
@[simp] theorem except_ok_bind {α β : Type} (a : α) (k : α → Except FaultRecord β) :
    (Except.ok a >>= k) = k a := rfl
@[simp] theorem except_error_bind {α β : Type} (f : FaultRecord) (k : α → Except FaultRecord β) :
    (Except.error f >>= k) = Except.error f := rfl

end Sys2Proof.Machine
end

