-- ==== Sys2Proof/Laws/PerInstr.lean ====
section
/-!
SUPPORT. The per-instruction family EncodeShape: encoding a well-formed instruction gives a 4-character string of uppercase
hexadecimal digits (spec 30_encoding.md R74). One lemma per constructor.
-/

namespace Sys2Proof.Laws.EncodeShape

/-- A string of exactly four uppercase hexadecimal digits. -/
def fourDigits (code : Cell) : Prop :=
  code.length = 4 ∧ ∀ c ∈ code, (Machine.hexDigit c).isSome = true

/-- The statement about one instruction. -/
def Statement (i : Instr) : Prop :=
  i.wellFormed = true → fourDigits (encode i)

theorem fourDigits_of {c0 c1 c2 c3 : Char} (h0 : (Machine.hexDigit c0).isSome = true)
    (h1 : (Machine.hexDigit c1).isSome = true) (h2 : (Machine.hexDigit c2).isSome = true)
    (h3 : (Machine.hexDigit c3).isSome = true) : fourDigits [c0, c1, c2, c3] := by
  refine ⟨rfl, fun d hd => ?_⟩
  simp only [List.mem_cons, List.not_mem_nil, or_false] at hd
  rcases hd with rfl | rfl | rfl | rfl <;> assumption

theorem of_register_byte {c : Char} (hc : (Machine.hexDigit c).isSome = true) (r aa : Nat) :
    fourDigits (c :: Machine.hexChar r :: hexByte aa) :=
  fourDigits_of hc (Machine.hexChar_isDigit _) (Machine.hexChar_isDigit _) (Machine.hexChar_isDigit _)

theorem of_three_registers {c : Char} (hc : (Machine.hexDigit c).isSome = true) (r s t : Nat) :
    fourDigits [c, Machine.hexChar r, Machine.hexChar s, Machine.hexChar t] :=
  fourDigits_of hc (Machine.hexChar_isDigit _) (Machine.hexChar_isDigit _) (Machine.hexChar_isDigit _)

theorem of_no_operands (op : Opcode) : fourDigits [op.toChar, '0', '0', '0'] :=
  fourDigits_of (by cases op <;> rfl) rfl rfl rfl

theorem unrecognized0 : Statement .unrecognized0 := fun _ => of_no_operands .op0
theorem loadMem (r aa : Nat) : Statement (.loadMem r aa) := fun _ => of_register_byte rfl r aa
theorem loadImm (r : Nat) (lit : Cell) : Statement (.loadImm r lit) := by
  intro h
  simp only [Instr.wellFormed, literalField, Bool.and_eq_true, decide_eq_true_eq, List.all_eq_true] at h
  obtain ⟨-, hlen, hdig⟩ := h
  refine ⟨by simp [encode, Instr.operandText, hlen], fun c hc => ?_⟩
  simp only [encode, Instr.operandText, List.mem_cons] at hc
  rcases hc with rfl | rfl | hc
  · rfl
  · exact Machine.hexChar_isDigit _
  · exact hdig c hc
theorem store (r aa : Nat) : Statement (.store r aa) := fun _ => of_register_byte rfl r aa
theorem move (r aa : Nat) : Statement (.move r aa) := fun _ => of_register_byte rfl r aa
theorem addInt (r s t : Nat) : Statement (.addInt r s t) := fun _ => of_three_registers rfl r s t
theorem addFloat (r s t : Nat) : Statement (.addFloat r s t) := fun _ => of_three_registers rfl r s t
theorem unrecognized7 : Statement .unrecognized7 := fun _ => of_no_operands .op7
theorem unrecognized8 : Statement .unrecognized8 := fun _ => of_no_operands .op8
theorem unrecognized9 : Statement .unrecognized9 := fun _ => of_no_operands .op9
theorem unrecognizedA : Statement .unrecognizedA := fun _ => of_no_operands .opA
theorem jumpEq (r aa : Nat) : Statement (.jumpEq r aa) := fun _ => of_register_byte rfl r aa
theorem halt : Statement .halt := fun _ => of_no_operands .opC
theorem unrecognizedD : Statement .unrecognizedD := fun _ => of_no_operands .opD
theorem unrecognizedE : Statement .unrecognizedE := fun _ => of_no_operands .opE
theorem unrecognizedF : Statement .unrecognizedF := fun _ => of_no_operands .opF

end Sys2Proof.Laws.EncodeShape
end

