-- ==== Sys2Proof/Laws/Step.lean ====
section
/-!
SUPPORT. What a step can do, said once, and the field lemmas of the engine's own stops.
-/

namespace Sys2Proof.Machine

theorem takeMalformed_eq (s : State) :
    takeMalformed s =
      halt .malformedInstruction (emit (.malformedInstruction s.ir (codeAddress s)) s) := rfl

theorem takeBadValue_eq (text : Cell) (site : Site) (s : State) :
    takeBadValue text site s = raise (.malformedValue text site .decode) s := rfl

theorem reportUnrecognized_eq (op : Opcode) (s : State) :
    reportUnrecognized op s = emit (.unrecognizedOpcode op.toChar s.ir (codeAddress s)) s := rfl

@[simp] theorem codeAddress_fetched (c : Cell) (s : State) : codeAddress (fetched c s) = s.pc := rfl

/-- Everything a step can be: nothing in a stopped machine; in a Running one a failed fetch, or a fetch and then the
malformed-instruction halt, the MalformedValue error, or the decoded instruction's meaning. -/
theorem step_cases (s : State) :
    (s.status ≠ .running ∧ step s = .next s) ∨
    (s.status = .running ∧ Config.nmem ≤ s.pc ∧ step s = .next (raise (.outOfRange .mem s.pc .read .fetch) s)) ∨
    (s.status = .running ∧ s.pc < Config.nmem ∧
      ((decode (s.mem.read s.pc) = .malformed ∧ step s = .next (takeMalformed (fetched (s.mem.read s.pc) s))) ∨
       (∃ text site, decode (s.mem.read s.pc) = .badValue text site ∧
          step s = .next (takeBadValue text site (fetched (s.mem.read s.pc) s))) ∨
       (∃ i, decode (s.mem.read s.pc) = .instr i ∧ step s = exec i (fetched (s.mem.read s.pc) s)))) := by
  unfold step engineStep
  cases hs : s.status with
  | halted => exact Or.inl ⟨by decide, rfl⟩
  | faulted => exact Or.inl ⟨by decide, rfl⟩
  | running =>
    refine Or.inr ?_
    rcases fetch_cases s with ⟨h, e⟩ | ⟨h, e⟩
    · refine Or.inr ⟨rfl, h, ?_⟩
      simp only [e, decodeDispatch, fetched_ir]
      cases hd : decode (s.mem.read s.pc) with
      | malformed => exact Or.inl ⟨rfl, rfl⟩
      | badValue text site => exact Or.inr (Or.inl ⟨text, site, rfl, rfl⟩)
      | instr i => exact Or.inr (Or.inr ⟨i, rfl, rfl⟩)
    · exact Or.inl ⟨rfl, h, by simp only [e]⟩

/-- No step of the host's run leaves the state as it is. -/
theorem core_run_zero (s : State) : core.run 0 s = .next s := rfl

/-- The host's run, one step at a time. -/
theorem core_run_succ {s t : State} (h : step s = .next t) (k : Nat) : core.run (k + 1) s = core.run k t := by
  have e : core.step s = .next t := h
  simp only [Host.Core.run, e]

end Sys2Proof.Machine
end

