-- ==== Sys2Proof/Machine/Codes.lean ====
section
/-!
DEFINITION. The numeric codes a host may read (spec 10_state.md R30, R31; 60_exceptions.md R113). The numbers are the spec's own
(decision D14, log 13); no behaviour depends on them.
-/

namespace Sys2Proof.Machine

/-- `status` (R30). -/
def Status.code : Status → Nat
  | .running => 0
  | .halted => 1
  | .faulted => 2

/-- `halt_cause` (R30). -/
def HaltCause.code : HaltCause → Nat
  | .haltInstruction => 1
  | .malformedInstruction => 2

/-- `fault.kind` (R30). -/
def FaultRecord.kindCode : FaultRecord → Nat
  | .outOfRange _ _ _ _ => 1
  | .malformedValue _ _ _ => 2

/-- `fault.space` (R30). -/
def Space.code : Space → Nat
  | .reg => 0
  | .mem => 1

/-- `fault.access` (R30). -/
def Access.code : Access → Nat
  | .read => 0
  | .write => 1

/-- `fault.op` (R113): a phase, or the opcode value of the instruction. -/
def Op.code : Op → Nat
  | .fetch => 0x10
  | .decode => 0x11
  | .loadMem => 0x1
  | .loadImm => 0x2
  | .store => 0x3
  | .move => 0x4
  | .addInt => 0x5
  | .addFloat => 0x6
  | .jumpEq => 0xB

/-- `fault.site` (R113). -/
def siteCode : Site → Nat
  | .opcode => 0
  | .register => 1
  | .operand => 2
  | .src1 => 3
  | .src2 => 4

/-- The kind of a diagnostic event (R31). -/
def Event.kindCode : Event → Nat
  | .unrecognizedOpcode _ _ _ => 1
  | .malformedInstruction _ _ => 2

end Sys2Proof.Machine
end

