-- ==== Sys2Proof/Tests/Slice0.lean ====
section
/-!
SUPPORT. Small tests: the well-formedness checks, one code of every opcode, one step of every instruction, the spec's own
vectors, and for every statement with hypotheses a state and operands that meet them. Expected values come from the spec
(95_test_vectors.md E1 to E10 and V-*, named at each test) or from its encodings by hand.
-/

open Sys2Proof Sys2Proof.Machine Sys2Proof.Statements

namespace Sys2Proof.Tests

/-! ### Helpers -/

/-- The state a step or a meaning answers, if it answers one. -/
def nextState (o : Host.Outcome State Fault Refusal) : Option State :=
  match o with
  | .next s => some s
  | .fault _ => none
  | .refused _ => none

/-- The machine after reset with one code at address 0. -/
def loaded (code : Cell) : State := State.reset.withMem (Memory.write [] 0 code)

/-- A register set by hand. -/
def setReg (s : State) (r : Fin 16) (v : Cell) : State := s.withX (s.x.set r v)

/-- One step, then one field. -/
def afterStep {α : Type} (s : State) (f : State → α) : Option α := (nextState (step s)).map f

/-! ### Well-formedness: one ill-formed term for each check -/

theorem test_wf_register_field : (Instr.loadMem 16 0).wellFormed = false := by decide
theorem test_wf_address_field : (Instr.store 0 256).wellFormed = false := by decide
theorem test_wf_move_destination : (Instr.move 0 256).wellFormed = false := by decide
theorem test_wf_jump_target : (Instr.jumpEq 0 256).wellFormed = false := by decide
theorem test_wf_add_destination : (Instr.addInt 16 0 0).wellFormed = false := by decide
theorem test_wf_add_source1 : (Instr.addInt 0 16 0).wellFormed = false := by decide
theorem test_wf_add_source2 : (Instr.addFloat 0 0 16).wellFormed = false := by decide
theorem test_wf_literal_length : (Instr.loadImm 0 ['5']).wellFormed = false := by decide
theorem test_wf_literal_digits : (Instr.loadImm 0 ['0', 'a']).wellFormed = false := by decide
theorem test_wf_accepts_extremes : (Instr.move 15 255).wellFormed = true := by decide

/-! ### Decode: a code of every opcode, written out from 30_encoding.md R55, R62 and R66; with the 16-bit view of R60 -/

theorem test_decode_unrecognized0 : decode ['0', '1', '2', '3'] = .instr .unrecognized0 := by decide
theorem test_decode_loadMem : decode ['1', '9', 'A', '5'] = .instr (.loadMem 9 0xA5) := by decide
theorem test_decode_loadImm : decode ['2', 'C', '0', '5'] = .instr (.loadImm 12 ['0', '5']) := by decide
theorem test_decode_store : decode ['3', '1', '2', '0'] = .instr (.store 1 0x20) := by decide
theorem test_decode_move : decode ['4', '3', '0', 'F'] = .instr (.move 3 15) := by decide
theorem test_decode_addInt : decode ['5', '0', '1', '2'] = .instr (.addInt 0 1 2) := by decide
theorem test_decode_addFloat : decode ['6', 'F', 'E', 'D'] = .instr (.addFloat 15 14 13) := by decide
theorem test_decode_unrecognized7 : decode ['7', 'A', 'B', 'C'] = .instr .unrecognized7 := by decide
theorem test_decode_unrecognized8 : decode ['8', '0', '0', '0'] = .instr .unrecognized8 := by decide
theorem test_decode_unrecognized9 : decode ['9', '0', '0', '0'] = .instr .unrecognized9 := by decide
theorem test_decode_unrecognizedA : decode ['A', '5', 'F', 'F'] = .instr .unrecognizedA := by decide
theorem test_decode_jumpEq : decode ['B', '3', '0', '4'] = .instr (.jumpEq 3 4) := by decide
theorem test_decode_halt : decode ['C', 'F', 'F', 'F'] = .instr .halt := by decide
theorem test_decode_unrecognizedD : decode ['D', '0', '0', '0'] = .instr .unrecognizedD := by decide
theorem test_decode_unrecognizedE : decode ['E', '0', '0', '0'] = .instr .unrecognizedE := by decide
theorem test_decode_unrecognizedF : decode ['F', '0', '0', '0'] = .instr .unrecognizedF := by decide

theorem test_decode_table_word : decodeTableWord 16 0b0011111000101101 = some (.store 14 0x2D) := by decide
theorem test_word_view : codeWord ['B', '3', '0', '4'] = some 0xB304 := by decide
theorem test_assembly_text : assemblyText (.addInt 15 1 2) = "ADD-INT xF, x1, x2".toList := by decide
theorem test_assembly_literal : assemblyText (.loadImm 0 ['0', '5']) = "LOAD-IMM x0, \"05\"".toList := by decide

/-! ### The vectors of decode and of the ArithmeticUnit -/

/-- R94: the ends of both ranges of digits, and the characters the rule names as having no value. -/
theorem test_digit_values :
    ['0', '9', 'A', 'F'].map hexDigit = [some 0, some 9, some 10, some 15] ∧
    (['a', 'f', ' ', '+', '-', 'x'].map hexDigit).all Option.isNone = true := by decide

/-- V-DEC-4, V-DEC-5: the length is checked before the characters. -/
theorem test_decode_short : decode ['C', '0', '0'] = .malformed ∧ decode ['z', 'z'] = .malformed := by decide
/-- V-DEC-16, V-DEC-25, V-DEC-22: opcode, register, operand, in this order. -/
theorem test_decode_bad_digits : decode ['c', '0', '0', '0'] = .badValue ['c'] .opcode ∧
    decode ['1', 'z', 'z', 'z'] = .badValue ['z'] .register ∧
    decode ['1', '0', '0', 'x'] = .badValue ['0', 'x'] .operand := by decide
/-- V-DEC-26, V-DEC-27. -/
theorem test_decode_long : decode ['2', '0', '0', '5', 'F', 'F'] = .instr (.loadImm 0 ['0', '5']) := by decide
/-- V-HEX-7 to V-HEX-9. -/
theorem test_hexToInt : hexToInt ['2', '0', '0', '5'] = some 8197 ∧ hexToInt [] = none ∧ hexToInt ['0', 'a'] = none := by
  decide
/-- V-HEX-15, V-HEX-19, V-HEX-21. -/
theorem test_intToHex : intToHex 0 = ['0'] ∧ intToHex 256 = ['1', '0', '0'] ∧ intToHex 65536 = ['1', '0', '0', '0', '0'] := by
  decide

/-! ### One step of every instruction -/

/-- V-DM-3: the instruction reads its own code. -/
theorem test_loadMem_own_code : afterStep (loaded ['1', '5', '0', '0']) (fun t => (t.x[5], t.pc)) =
    some (['1', '5', '0', '0'], 1) := by decide
/-- V-DM-4: an empty cell is a value. -/
theorem test_loadMem_empty : afterStep ((loaded ['1', '0', '2', '0']).withMem
    [(0, ['1', '0', '2', '0']), (32, [])]) (fun t => t.x[0]) = some [] := by decide
/-- E3. -/
theorem test_loadImm_keeps_zero : afterStep (loaded ['2', '0', '0', '5']) (fun t => (t.x[0], t.ir)) =
    some (['0', '5'], ['2', '0', '0', '5']) := by decide
/-- V-DM-8. -/
theorem test_store_cell : afterStep (setReg (loaded ['3', '1', '2', '0']) 1 ['7']) (fun t => t.mem.read 32) =
    some ['7'] := by decide
/-- Storing "00" leaves nothing listed. -/
theorem test_store_canonical : afterStep ((loaded ['3', '1', '2', '0']).withMem
    [(0, ['3', '1', '2', '0']), (32, ['7'])]) (fun t => t.mem) = some [(0, ['3', '1', '2', '0'])] := by decide
/-- V-DM-12: the register field is the source, the operand field the destination. -/
theorem test_move_direction : afterStep (setReg (loaded ['4', '3', '0', 'F']) 3 ['A', 'B'])
    (fun t => (t.x[15], t.x[3])) = some (['A', 'B'], ['A', 'B']) := by decide
/-- E5. -/
theorem test_move_out_of_range : afterStep (loaded ['4', '0', '1', '0']) (fun t => (t.status, t.faultRecord, t.pc)) =
    some (.faulted, some (.outOfRange .reg 16 .write .move), 1) := by decide
/-- E4. -/
theorem test_addInt_unpadded : afterStep (setReg (setReg (loaded ['5', '0', '1', '2']) 1 ['0', '3']) 2 ['0', '4'])
    (fun t => t.x[0]) = some ['7'] := by decide
/-- V-AR-13: source 1 is reported first. -/
theorem test_addInt_source1_first : afterStep (setReg (setReg (loaded ['5', '0', '1', '2']) 1 ['g']) 2 ['h'])
    (fun t => (t.faultRecord, t.x[0])) = some (some (.malformedValue ['g'] .src1 .addInt), ['0', '0']) := by decide
/-- V-AR-6 under opcode 6: the destination may be longer than any input. -/
theorem test_addFloat_is_integer : afterStep (setReg (loaded ['6', '3', '1', '1']) 1 ['F', 'F']) (fun t => t.x[3]) =
    some ['1', 'F', 'E'] := by decide
/-- V-AR-12 under opcode 6: the record names ADD-FLOAT. -/
theorem test_addFloat_record : afterStep (setReg (loaded ['6', '0', '1', '2']) 2 []) (fun t => t.faultRecord) =
    some (some (.malformedValue [] .src2 .addFloat)) := by decide
/-- E6 (a). -/
theorem test_jumpEq_taken : afterStep (loaded ['B', '3', '0', '4']) (fun t => t.pc) = some 4 := by decide
/-- V-CT-3: the comparison is of strings. -/
theorem test_jumpEq_strings : afterStep (setReg (setReg (loaded ['B', '3', '0', '4']) 0 ['7']) 3 ['0', '7'])
    (fun t => t.pc) = some 1 := by decide
/-- E7 and V-CT-8. -/
theorem test_halt_status : afterStep (loaded ['C', 'A', 'B', 'C']) (fun t => (t.status, t.haltCause, t.pc)) =
    some (.halted, some .haltInstruction, 1) := by decide
theorem test_halt_no_diagnostic : afterStep (loaded ['C', '0', '0', '0']) (fun t => t.diag) = some [] := by decide
/-- V-CT-10. -/
theorem test_unrecognized0_event : afterStep (loaded ['0', '0', '0', '0']) (fun t => t.diag) =
    some [.unrecognizedOpcode '0' ['0', '0', '0', '0'] 0] := by decide
theorem test_unrecognized7_event : afterStep (loaded ['7', '0', '0', '1']) (fun t => t.diag) =
    some [.unrecognizedOpcode '7' ['7', '0', '0', '1'] 0] := by decide
theorem test_unrecognized8_event : afterStep (loaded ['8', '0', '0', '1']) (fun t => t.diag) =
    some [.unrecognizedOpcode '8' ['8', '0', '0', '1'] 0] := by decide
theorem test_unrecognized9_event : afterStep (loaded ['9', '0', '0', '1']) (fun t => t.diag) =
    some [.unrecognizedOpcode '9' ['9', '0', '0', '1'] 0] := by decide
/-- V-CT-11: A is unrecognized, not a jump. -/
theorem test_unrecognizedA_event : afterStep (loaded ['A', '5', 'F', 'F']) (fun t => (t.diag, t.pc)) =
    some ([.unrecognizedOpcode 'A' ['A', '5', 'F', 'F'] 0], 1) := by decide
theorem test_unrecognizedD_event : afterStep (loaded ['D', '0', '0', '1']) (fun t => t.diag) =
    some [.unrecognizedOpcode 'D' ['D', '0', '0', '1'] 0] := by decide
theorem test_unrecognizedE_event : afterStep (loaded ['E', '0', '0', '1']) (fun t => t.diag) =
    some [.unrecognizedOpcode 'E' ['E', '0', '0', '1'] 0] := by decide
/-- V-CT-9, with the address 7 it was fetched from. -/
theorem test_unrecognizedF_event : afterStep ((State.reset.withMem [(7, ['F', '0', '0', '0'])]).withPc 7)
    (fun t => (t.diag, t.status)) = some ([.unrecognizedOpcode 'F' ['F', '0', '0', '0'] 7], .running) := by decide

/-! ### The engine and the host's operations -/

/-- V-EN-4. -/
theorem test_fetch_past_memory : afterStep (State.reset.withPc 256) (fun t => (t.status, t.faultRecord, t.pc)) =
    some (.faulted, some (.outOfRange .mem 256 .read .fetch), 256) := by decide
/-- E9. -/
theorem test_short_code : afterStep (loaded ['C', '0', '0']) (fun t => (t.haltCause, t.diag)) =
    some (some .malformedInstruction, [.malformedInstruction ['C', '0', '0'] 0]) := by decide
/-- V-EN-6. -/
theorem test_bad_operand : afterStep (loaded ['1', '0', 'G', '0']) (fun t => (t.faultRecord, t.diag)) =
    some (some (.malformedValue ['G', '0'] .operand .decode), []) := by decide
theorem test_placed_word_runs : afterStep (State.reset.withFetchWord 16 0x2005) (fun t => t.x[0]) = some ['0', '5'] := by
  decide
/-- V-ACC-3, V-ACC-4, V-ACC-6. -/
theorem test_access_bounds : regRead State.reset 16 .move = .error (.outOfRange .reg 16 .read .move) ∧
    regWrite State.reset (-1) [] .move = .error (.outOfRange .reg (-1) .write .move) ∧
    memRead State.reset 256 .fetch = .error (.outOfRange .mem 256 .read .fetch) := ⟨rfl, rfl, rfl⟩
/-- V-EN-9. -/
theorem test_load_after_step : load [['2', '0', '0', '5']] .success (halt .haltInstruction State.reset) =
    .refused .loadAfterStep := rfl
/-- R131: tokens in order from address 0. -/
theorem test_load_tokens : (nextState (load [['2', '0', '0', '5'], ['C']] .success State.reset)).map (fun t => t.mem) =
    some [(0, ['2', '0', '0', '5']), (1, ['C'])] := by decide
theorem test_codes : Op.fetch.code = 0x10 ∧ Op.jumpEq.code = 0xB ∧ siteCode .src2 = 4 ∧ Status.faulted.code = 2 := by decide
theorem test_snapshot_last_cell : (snapshot (State.reset.withMem [(255, ['7'])])).memory[255]? = some ['7'] := by decide

/-! ### Witnesses: for every statement with hypotheses, a state and operands that meet them all -/

theorem witness_DecodeOfEncodeIsTheInstruction : (Instr.addFloat 15 0 15).wellFormed = true := by decide
theorem witness_EncodeOfDecodeIsTheCode :
    (decode ['3', 'F', 'F', 'F', 'z'] = .instr (.store 15 255) ∧ keepsEveryField (.store 15 255) = true) ∧
    (decode ['C', 'F', 'F', 'F'] = .instr .halt ∧ keepsEveryField .halt = false) := by decide
theorem witness_DecodedInstructionsAreWellFormed : decode ['4', 'F', 'F', 'F'] = .instr (.move 15 255) := by decide
theorem witness_DecodeIgnoresLaterCharacters : 4 ≤ (['2', '0', '0', '5'] : Cell).length := by decide
theorem witness_BadDigitsAreNamedInOrder : ¬ isDigit ':' ∧ ¬ isDigit '@' ∧ ¬ isDigit 'G' ∧ ¬ isDigit '/' ∧
    isDigit '0' ∧ isDigit '9' ∧ isDigit 'A' ∧ isDigit 'F' ∧ ¬ (isDigit 'F' ∧ isDigit 'G') := by decide
theorem witness_IntToHexRemovesLeadingZeros : hexToInt ['0', '5'] = some 5 ∧ hexToInt ['0', '0'] = some 0 := by decide
theorem witness_HexToIntIsThePositionalSum : ((['0', 'g'] : Cell) = [] ∨ ∃ d ∈ (['0', 'g'] : Cell), hexDigit d = none) ∧
    (['F', '0'] : Cell) ≠ [] ∧ ∀ d ∈ (['F', '0'] : Cell), isDigit d :=
  ⟨Or.inr ⟨'g', by simp, rfl⟩, by simp, by simp [isDigit, hexDigit, hexAlphabet]⟩
theorem witness_RegisterAccessContract : ((0 : Int) ≤ 0 ∧ (0 : Int) < 16) ∧ ((0 : Int) ≤ 15 ∧ (15 : Int) < 16) ∧
    ((-1 : Int) < 0 ∨ (16 : Int) ≤ -1) ∧ ((16 : Int) < 0 ∨ (16 : Int) ≤ 16) := by decide
theorem witness_MemoryAccessContract : (loaded ['C', '0', '0', '0']).mem.wf ∧ ((0 : Int) ≤ 255 ∧ (255 : Int) < 256) ∧
    ((-1 : Int) < 0 ∨ (256 : Int) ≤ -1) ∧ ((256 : Int) < 0 ∨ (256 : Int) ≤ 256) := by decide

/-- Registers and addresses at the ends of their ranges: the hypotheses of LoadMemCopiesTheCell, and with the last part those
of StoreWritesOneCell. -/
theorem witness_LoadMemCopiesTheCell_and_StoreWritesOneCell : 15 < 16 ∧ 255 < 256 ∧ (loaded ['3', 'F', 'F', 'F']).mem.wf := by
  decide
theorem witness_LoadImmWritesTheLiteral : 15 < 16 ∧ isDigit '0' ∧ isDigit 'F' := by decide
theorem witness_MoveCopiesOrRaises : (15 < 16 ∧ 15 < 256 ∧ 15 < 16) ∧ (15 < 16 ∧ 16 < 256 ∧ 16 ≤ 16) ∧
    (15 < 16 ∧ 255 < 256 ∧ 16 ≤ 255) := by decide

/-- A register file with a parsable x1 and unparsable x2 and x3. -/
def mixed : State := setReg (setReg (setReg State.reset 1 ['F', 'F']) 2 ['g']) 3 []

/-- The three cases of AddIntSumsOrRaises and AddFloatSumsOrRaises: both parse, source 1 does not, source 2 does not. -/
theorem witness_AddIntSumsOrRaises_and_AddFloatSumsOrRaises :
    (hexToInt mixed.x[1] = some 255 ∧ hexToInt mixed.x[0] = some 0) ∧ hexToInt mixed.x[2] = none ∧
    (hexToInt mixed.x[1] = some 255 ∧ hexToInt mixed.x[3] = none) := by decide
theorem witness_AddSourcesCommute : isHexCell mixed.x[1] = true ∧ isHexCell mixed.x[15] = true := by decide
theorem witness_JumpEqComparesCells : (15 < 16 ∧ 255 < 256 ∧ mixed.x[15] = mixed.x[0]) ∧
    (1 < 16 ∧ 0 < 256 ∧ mixed.x[1] ≠ mixed.x[0]) := by decide
theorem witness_HaltStopsTheMachine_and_UnrecognizedOpcodesReport : isDigit '0' ∧ isDigit '9' ∧ isDigit 'F' ∧
    ('F', Instr.unrecognizedF) ∈ unrecognizedRows := by decide
theorem witness_PseudoInstructionsMean : 15 < 16 ∧ hexToInt mixed.x[0] = some 0 ∧ hexToInt mixed.x[1] = some 255 := by
  decide
theorem witness_OperationsIgnoreIrAndDiagnostics : (∀ row ∈ unrecognizedRows, Instr.halt ≠ row.2) ∧
    nextState (exec .halt mixed) = some (halt .haltInstruction mixed) := by decide

theorem witness_StepRunsTheDecodedInstruction : (loaded ['B', '0', 'F', 'F']).status = .running ∧
    (loaded ['B', '0', 'F', 'F']).pc < 256 ∧
    decode (codeAt (loaded ['B', '0', 'F', 'F'])) = .instr (.jumpEq 0 255) := by decide
theorem witness_StepRunsThePlacedWord : (State.reset.withPc 255).status = .running ∧ (State.reset.withPc 255).pc < 256 ∧
    (State.reset.withPc 255).mem.wf := by decide
theorem witness_ShortCodeHaltsWithDiagnostic : (loaded ['C', '0', '0']).status = .running ∧
    (loaded ['C', '0', '0']).pc < 256 ∧ (codeAt (loaded ['C', '0', '0'])).length < 4 := by decide
theorem witness_BadDigitFaultsAtDecode : (loaded ['C', 'z', '0', '0']).status = .running ∧
    (loaded ['C', 'z', '0', '0']).pc < 256 ∧
    decode (codeAt (loaded ['C', 'z', '0', '0'])) = .badValue ['z'] .register := by decide
theorem witness_FetchPastMemoryFaults : (State.reset.withPc 256).status = .running ∧ 256 ≤ (State.reset.withPc 256).pc := by
  decide
theorem witness_StoppedMachineNeverChanges : (halt .haltInstruction mixed).status ≠ .running ∧
    (raise (.outOfRange .reg 16 .write .move) mixed).status ≠ .running := by decide
theorem witness_EveryStepKeepsTheInvariant : (loaded ['3', '0', '1', '0']).inv ∧
    ∃ t, step (loaded ['3', '0', '1', '0']) = .next t := ⟨by decide, _, rfl⟩
theorem witness_HexCellsStayHex : (loaded ['5', '1', '0', '0']).hexOnly ∧
    ∃ t, step (loaded ['5', '1', '0', '0']) = .next t := ⟨by decide, _, rfl⟩
theorem witness_HexProgramsNeverRaiseMalformedValue : (loaded ['5', '1', '0', '0']).hexOnly ∧
    (loaded ['5', '1', '0', '0']).noMalformedValue ∧ ∃ t, core.run 1 (loaded ['5', '1', '0', '0']) = .next t := by
  refine ⟨by decide, ?_, _, rfl⟩
  intro text site op h
  cases h

/-- Both records of ReachableOutOfRangeRecords arise, from a machine that is Running and holds no record. -/
theorem witness_ReachableOutOfRangeRecords :
    ((loaded ['4', '0', '1', '0']).status = .running ∧ (loaded ['4', '0', '1', '0']).faultRecord = none ∧
      afterStep (loaded ['4', '0', '1', '0']) (fun t => t.faultRecord) = some (some (.outOfRange .reg 16 .write .move))) ∧
    ((State.reset.withPc 256).status = .running ∧ (State.reset.withPc 256).faultRecord = none ∧
      afterStep (State.reset.withPc 256) (fun t => t.faultRecord) = some (some (.outOfRange .mem 256 .read .fetch))) := by
  decide

/-- The four ends of RunEndsInFourWays and StopsArePrecise, each from a Running machine; the last is the failed fetch. -/
theorem witness_RunEndsInFourWays_and_StopsArePrecise :
    ((loaded ['C', '0', '0', '0']).status = .running ∧ afterStep (loaded ['C', '0', '0', '0']) (fun t => t.status) = some .halted) ∧
    ((loaded ['C']).status = .running ∧ afterStep (loaded ['C']) (fun t => t.status) = some .halted) ∧
    ((loaded ['z', '0', '0', '0']).status = .running ∧
      afterStep (loaded ['z', '0', '0', '0']) (fun t => t.status) = some .faulted) ∧
    ((State.reset.withPc 256).status = .running ∧ afterStep (State.reset.withPc 256) (fun t => t.status) = some .faulted) := by
  decide

/-- The cases of OnlyFetchAndJumpWritePc, OnlyFetchWritesIr and DiagnosticsAreAppended: a jump, another code, a failed fetch;
each a Running machine whose step answers a next state. -/
theorem witness_OnlyFetchAndJumpWritePc_OnlyFetchWritesIr_DiagnosticsAreAppended :
    (decode (codeAt (loaded ['B', '3', 'F', 'F'])) = .instr (.jumpEq 3 255) ∧
      afterStep (loaded ['B', '3', 'F', 'F']) (fun t => t.pc) = some 255) ∧
    (afterStep (loaded ['F', '0', '0', '0']) (fun t => t.pc) = some 1) ∧
    (afterStep (State.reset.withPc 256) (fun t => t.pc) = some 256) := by decide
/-- The cases of OnlyStoreWritesMemory and OnlyTheDestinationRegisterChanges: a STORE, and a code that stores nothing and
names x1, in a canonical memory. -/
theorem witness_OnlyStoreWritesMemory_and_OnlyTheDestinationRegisterChanges :
    (loaded ['3', '0', 'F', 'F']).mem.wf ∧ decode (codeAt (loaded ['3', '0', 'F', 'F'])) = .instr (.store 0 255) ∧
    (afterStep (loaded ['3', '0', 'F', 'F']) (fun t => t.pc) = some 1) ∧
    decode (codeAt (loaded ['2', '1', 'F', 'F'])) = .instr (.loadImm 1 ['F', 'F']) ∧
    destinationOf (.loadImm 1 ['F', 'F']) ≠ some 15 ∧
    afterStep (loaded ['2', '1', 'F', 'F']) (fun t => t.pc) = some 1 := by decide

/-- A STORE over the next code, with a stored code that runs (x1) and one that halts (x0). -/
def selfModifying : State := setReg ((State.reset.withMem [(254, ['3', '1', 'F', 'F']), (255, ['F', '0', '0', '0'])]).withPc 254)
  1 ['C', '0', '0', '0']

theorem witness_StoredCodeIsFetchedNext : selfModifying.status = .running ∧ selfModifying.mem.wf ∧
    selfModifying.pc + 1 < 256 ∧ decode (codeAt selfModifying) = .instr (.store 1 (selfModifying.pc + 1)) ∧
    decode selfModifying.x[1] = .instr .halt ∧ selfModifying.x[0].length < 4 := by decide
theorem witness_SelfJumpNeverEnds : (loaded ['B', 'F', '0', '0']).status = .running ∧ (loaded ['B', 'F', '0', '0']).pc < 256 ∧
    (loaded ['B', 'F', '0', '0']).x[15] = (loaded ['B', 'F', '0', '0']).x[0] ∧
    decode (codeAt (loaded ['B', 'F', '0', '0'])) = .instr (.jumpEq 15 (loaded ['B', 'F', '0', '0']).pc) := by decide
theorem witness_RunResultIsBudgetIndependent : runCall 0 (halt .haltInstruction mixed) = .ended (halt .haltInstruction mixed) := by
  decide
theorem witness_LoadAfterAStepIsRefused : ∃ t, step (loaded ['F', '0', '0', '0']) = .next t := ⟨_, rfl⟩

end Sys2Proof.Tests
end

section
/-!
PROOFS. Register access and the cells at reset (spec 10_state.md R16 and R20).

The laws of the shared operations speak of natural-number indices; R20 speaks of every integer, so the failing side is said
here once more for an index below zero or at and past the capacity.
-/

namespace Sys2Proof.Machine

/-! ### An integer index outside the array -/

theorem not_inRange_of_outside {i : Int} {cap : Nat} (h : i < 0 ∨ (cap : Int) ≤ i) : ¬ inRange i cap = true := by
  rw [inRange_iff]
  omega

theorem regRead_outside (s : State) {i : Int} (h : i < 0 ∨ (Config.nreg : Int) ≤ i) (op : Op) :
    regRead s i op = .error (.outOfRange .reg i .read op) :=
  dif_neg (not_inRange_of_outside h)

theorem regWrite_outside (s : State) {i : Int} (h : i < 0 ∨ (Config.nreg : Int) ≤ i) (v : Cell) (op : Op) :
    regWrite s i v op = .error (.outOfRange .reg i .write op) :=
  dif_neg (not_inRange_of_outside h)

/-! ### The obligations -/

/-- Settles O13: an index in range is a natural number below the capacity, where the accesses' laws give both answers; any
other index fails the accessors' test, and the raise that ends the failed write keeps the registers. -/
theorem registerAccessContract : Obligations.RegisterAccessContract := by
  intro s i v op
  constructor
  · intro hlow hhigh
    obtain ⟨n, rfl⟩ := Int.eq_ofNat_of_zero_le hlow
    have hn : n < Config.nreg := Int.ofNat_lt.mp hhigh
    exact ⟨hn, regRead_ok hn op, regWrite_ok hn v op⟩
  · intro hout
    have hwrite := regWrite_outside s hout v op
    refine ⟨regRead_outside s hout op, hwrite, ?_⟩
    rw [hwrite, finish_error]
    rfl

/-- Settles O36: the register file at reset is a replicated initial cell, and the memory lists no cell, so that every address
reads as the initial cell. -/
theorem cellsAtReset : Obligations.CellsAtReset := by
  constructor
  · intro n hn
    exact reset_x n hn
  · intro a _
    rw [reset_mem]
    exact read_nil a

end Sys2Proof.Machine
end

section
/-!
PROOFS. The malformed-instruction halt (spec 40_engine.md R79): a fetched code that is too short to decode ends the run with its
diagnostic.
-/

namespace Sys2Proof.Machine

/-! ### The step on a code that does not decode -/

/-- The malformed-code answer of R56. -/
theorem decode_eq_malformed_of_short {code : Cell} (h : code.length < 4) : decode code = .malformed := by
  by_contra hd
  exact Nat.not_le_of_lt h (length_of_not_malformed hd)

/-- Of the ways `step_cases` lists, the only one open to a Running machine whose fetch succeeds with a malformed code. -/
theorem step_eq_takeMalformed {s : State} (hrun : s.status = .running) (hpc : s.pc < Config.nmem)
    (hd : decode (s.mem.read s.pc) = .malformed) :
    step s = .next (takeMalformed (fetched (s.mem.read s.pc) s)) := by
  rcases step_cases s with ⟨hstop, -⟩ | ⟨-, hpast, -⟩ | ⟨-, -, ⟨-, e⟩ | ⟨text, site, hbad, -⟩ | ⟨i, hi, -⟩⟩
  · exact absurd hrun hstop
  · exact absurd hpc (Nat.not_lt_of_le hpast)
  · exact e
  · rw [hd] at hbad
    cases hbad
  · rw [hd] at hi
    cases hi

/-- The halt after a fetch, field by field; the event names the address fetched from, not the advanced `pc` (R31, R79). -/
theorem takeMalformed_fetched (code : Cell) (s : State) :
    takeMalformed (fetched code s) =
      { s with ir := code, pc := s.pc + 1, status := .halted, haltCause := some .malformedInstruction,
               diag := s.diag ++ [.malformedInstruction code s.pc] } := by
  rw [takeMalformed_eq, codeAddress_fetched, fetched_ir]
  rfl

/-! ### The obligation -/

/-- Settles O29: a code shorter than 4 characters decodes to MALFORMED, so the step is the malformed-instruction halt on the
state after the fetch. -/
theorem shortCodeHaltsWithDiagnostic : Obligations.ShortCodeHaltsWithDiagnostic := by
  intro s hrun hpc hshort
  rw [step_eq_takeMalformed hrun hpc (decode_eq_malformed_of_short hshort), takeMalformed_fetched]

end Sys2Proof.Machine
end

section
/-!
PROOFS. LOAD-MEM, LOAD-IMM, STORE and MOVE (spec 41_data_movement.md R90 to R93): the codes that decode to them, and their
meanings on in-range fields.

Each meaning is at most two bounds-checked accesses, so it is settled by the answers of the operand forms; the fields an
encoding gives are in range but for MOVE's destination, the whole operand field.
-/

namespace Sys2Proof.Machine

/-! ### Codes with a register field and a byte or literal field -/

theorem hexDigit_hexChar_of_lt {d : Nat} (h : d < 16) : hexDigit (hexChar d) = some d := by
  rw [hexDigit_hexChar, Nat.mod_eq_of_lt h]

/-- Two digits that pass the operand check of R58 are also kept as text, which is what LOAD-IMM reads (R59). -/
theorem decode_register_literal (op : Opcode) {r u v : Nat} {c d : Char} (hr : r < 16) (hc : hexDigit c = some u)
    (hd : hexDigit d = some v) :
    decode [op.toChar, hexChar r, c, d] = .instr (opcodeMap op ⟨r, 16 * u + v, [c, d], u, v⟩) :=
  decode_fields (ofChar_toChar op) (hexDigit_hexChar_of_lt hr) hc hd

/-- The two digits of a byte decode to the byte (R59, R63). -/
theorem decode_register_byte (op : Opcode) {r aa : Nat} (hr : r < 16) (haa : aa < 256) :
    decode (op.toChar :: hexChar r :: hexByte aa) =
      .instr (opcodeMap op ⟨r, aa, hexByte aa, aa / 16, aa % 16⟩) := by
  have high : hexDigit (hexChar (aa / 16)) = some (aa / 16) := hexDigit_hexChar_of_lt (by omega)
  have low : hexDigit (hexChar (aa % 16)) = some (aa % 16) := hexDigit_hexChar_of_lt (by omega)
  have value : 16 * (aa / 16) + aa % 16 = aa := Nat.div_add_mod aa 16
  have fields := decode_register_literal op hr high low
  rw [value] at fields
  exact fields

/-! ### The operand forms on an index in range, and a destination out of range -/

theorem srcRegister_ok {s : State} {r : Nat} (h : r < Config.nreg) (op : Op) : srcRegister s r op = .ok (s.x[r]'h) :=
  regRead_ok h op

theorem dstRegister_ok {s : State} {r : Nat} (h : r < Config.nreg) (v : Cell) (op : Op) :
    dstRegister s r v op = .ok (s.withX (s.x.set r v h)) :=
  regWrite_ok h v op

theorem dstRegister_error {s : State} {r : Nat} (h : Config.nreg ≤ r) (v : Cell) (op : Op) :
    dstRegister s r v op = .error (.outOfRange .reg r .write op) :=
  regWrite_error h v op

theorem srcMemory_ok {s : State} {aa : Nat} (h : aa < Config.nmem) (op : Op) :
    srcMemory s aa op = .ok (s.mem.read aa) :=
  memRead_ok h op

theorem dstMemory_ok {s : State} {aa : Nat} (h : aa < Config.nmem) (v : Cell) (op : Op) :
    dstMemory s aa v op = .ok (s.withMem (s.mem.write aa v)) :=
  memWrite_ok h v op

/-! ### The meanings as sequences of accesses -/

theorem exec_loadMem_eq (r aa : Nat) (s : State) :
    exec (.loadMem r aa) s = finish s (srcMemory s aa .loadMem >>= fun v => dstRegister s r v .loadMem) := rfl

theorem exec_loadImm_eq (r : Nat) (lit : Cell) (s : State) :
    exec (.loadImm r lit) s = finish s (dstRegister s r lit .loadImm) := rfl

theorem exec_store_eq (r aa : Nat) (s : State) :
    exec (.store r aa) s = finish s (srcRegister s r .store >>= fun v => dstMemory s aa v .store) := rfl

theorem exec_move_eq (r aa : Nat) (s : State) :
    exec (.move r aa) s = finish s (srcRegister s r .move >>= fun v => dstRegister s aa v .move) := rfl

/-! ### The meanings on the fields an encoding gives -/

theorem exec_loadMem {r aa : Nat} (hr : r < Config.nreg) (haa : aa < Config.nmem) (s : State) :
    exec (.loadMem r aa) s = .next (s.withX (s.x.set r (s.mem.read aa) hr)) := by
  rw [exec_loadMem_eq, srcMemory_ok haa, except_ok_bind, dstRegister_ok hr, finish_ok]

/-- No condition on the literal: it is written verbatim (R91). -/
theorem exec_loadImm {r : Nat} (hr : r < Config.nreg) (lit : Cell) (s : State) :
    exec (.loadImm r lit) s = .next (s.withX (s.x.set r lit hr)) := by
  rw [exec_loadImm_eq, dstRegister_ok hr, finish_ok]

theorem exec_store {r aa : Nat} (hr : r < Config.nreg) (haa : aa < Config.nmem) (s : State) :
    exec (.store r aa) s = .next (s.withMem (s.mem.write aa (s.x[r]'hr))) := by
  rw [exec_store_eq, srcRegister_ok hr, except_ok_bind, dstMemory_ok haa, finish_ok]

theorem exec_move {r aa : Nat} (hr : r < Config.nreg) (haa : aa < Config.nreg) (s : State) :
    exec (.move r aa) s = .next (s.withX (s.x.set aa (s.x[r]'hr) haa)) := by
  rw [exec_move_eq, srcRegister_ok hr, except_ok_bind, dstRegister_ok haa, finish_ok]

/-- A destination past the register file fails the write, after the read (R93). -/
theorem exec_move_outOfRange {r aa : Nat} (hr : r < Config.nreg) (haa : Config.nreg ≤ aa) (s : State) :
    exec (.move r aa) s = .next (raise (.outOfRange .reg aa .write .move) s) := by
  rw [exec_move_eq, srcRegister_ok hr, except_ok_bind, dstRegister_error haa, finish_error]

/-! ### The obligations -/

/-- Settles O17: the memory after is the write at `aa`, which `read_write` reads back at every address; this is where the
canonical form is needed. -/
theorem storeWritesOneCell : Obligations.StoreWritesOneCell := by
  intro s r aa hr haa hwf
  refine ⟨decode_register_byte .op3 hr haa, s.mem.write aa s.x[r], exec_store hr haa s, fun a => ?_⟩
  exact read_write hwf aa s.x[r] a

/-- Settles O15: both indices are in range, so neither access raises. -/
theorem loadMemCopiesTheCell : Obligations.LoadMemCopiesTheCell := by
  intro s r aa hr haa
  exact ⟨decode_register_byte .op1 hr haa, exec_loadMem hr haa s⟩

/-- Settles O16: the digit check only inspects the two characters, and decode hands them on as text. -/
theorem loadImmWritesTheLiteral : Obligations.LoadImmWritesTheLiteral := by
  intro s r c d hr hc hd
  obtain ⟨u, hu⟩ := Option.isSome_iff_exists.mp hc
  obtain ⟨v, hv⟩ := Option.isSome_iff_exists.mp hd
  exact ⟨decode_register_literal .op2 hr hu hv, exec_loadImm hr [c, d] s⟩

/-- Settles O18: the source is in range always, so the bound on the destination decides between the copy and the error. -/
theorem moveCopiesOrRaises : Obligations.MoveCopiesOrRaises := by
  intro s r aa hr haa
  refine ⟨decode_register_byte .op4 hr haa, fun hdst => ?_, fun hout => ?_⟩
  · exact exec_move hr hdst s
  · exact exec_move_outOfRange hr hout s

end Sys2Proof.Machine
end

section
/-!
PROOFS. ADD-INT and ADD-FLOAT (spec 42_arithmetic.md R101 and R102): the codes that decode to them, the sum, and the two
MalformedValue errors.

The two opcodes share one add, so everything is said once of `addRegisters`, for any `op` in the error records. The two
register reads cannot fail on the fields an encoding gives; what is left is the two parses in order, then the write.
-/

namespace Sys2Proof.Machine

/-! ### Codes with three register fields -/

theorem decode_three_registers (op : Opcode) {r s t : Nat} (hr : r < 16) (hs : s < 16) (ht : t < 16) :
    decode [op.toChar, hexChar r, hexChar s, hexChar t] =
      .instr (opcodeMap op ⟨r, 16 * s + t, [hexChar s, hexChar t], s, t⟩) :=
  decode_register_literal op hr (hexDigit_hexChar_of_lt hs) (hexDigit_hexChar_of_lt ht)

/-! ### The parse of a source -/

theorem parseHex_ok {c : Cell} {v : Nat} (h : hexToInt c = some v) (site : Site) (op : Op) :
    parseHex c site op = .ok v := by
  simp only [parseHex, h]

theorem parseHex_error {c : Cell} (h : hexToInt c = none) (site : Site) (op : Op) :
    parseHex c site op = .error (.malformedValue c site op) := by
  simp only [parseHex, h]

/-! ### The add on the fields an encoding gives -/

/-- With both sources in range only the parses and the write can raise. -/
theorem addRegisters_eq {src1 src2 : Nat} (h1 : src1 < Config.nreg) (h2 : src2 < Config.nreg) (op : Op) (r : Nat)
    (s : State) :
    addRegisters op r src1 src2 s =
      parseHex (s.x[src1]'h1) .src1 op >>= fun a =>
        parseHex (s.x[src2]'h2) .src2 op >>= fun b => dstRegister s r (addHex a b) op := by
  unfold addRegisters
  rw [srcRegister_ok h1, except_ok_bind, srcRegister_ok h2, except_ok_bind]

section
variable {s : State} {r src1 src2 : Nat} (h1 : src1 < Config.nreg) (h2 : src2 < Config.nreg) (op : Op)

/-- Both sources are parsed before the destination is written, so `r` may name a source. -/
theorem addRegisters_ok (hr : r < Config.nreg) {a b : Nat} (ha : hexToInt (s.x[src1]'h1) = some a)
    (hb : hexToInt (s.x[src2]'h2) = some b) :
    addRegisters op r src1 src2 s = .ok (s.withX (s.x.set r (addHex a b) hr)) := by
  rw [addRegisters_eq h1 h2, parseHex_ok ha, except_ok_bind, parseHex_ok hb, except_ok_bind, dstRegister_ok hr]

include h2 in
/-- Source 1 is checked first: nothing is asked of the text of source 2. -/
theorem addRegisters_error_src1 (ha : hexToInt (s.x[src1]'h1) = none) :
    addRegisters op r src1 src2 s = .error (.malformedValue (s.x[src1]'h1) .src1 op) := by
  rw [addRegisters_eq h1 h2, parseHex_error ha, except_error_bind]

theorem addRegisters_error_src2 {a : Nat} (ha : hexToInt (s.x[src1]'h1) = some a)
    (hb : hexToInt (s.x[src2]'h2) = none) :
    addRegisters op r src1 src2 s = .error (.malformedValue (s.x[src2]'h2) .src2 op) := by
  rw [addRegisters_eq h1 h2, parseHex_ok ha, except_ok_bind, parseHex_error hb, except_error_bind]

end

/-! ### The two opcodes -/

theorem exec_addInt_eq (r src1 src2 : Nat) (s : State) :
    exec (.addInt r src1 src2) s = finish s (addRegisters .addInt r src1 src2 s) := rfl

theorem exec_addFloat_eq (r src1 src2 : Nat) (s : State) :
    exec (.addFloat r src1 src2) s = finish s (addRegisters .addFloat r src1 src2 s) := rfl

/-- Any row of the opcode map that has the three register fields and means `addRegisters` behaves as R101 says. -/
theorem addsAs_of_addRegisters {opcode : Opcode} {mk : Nat → Nat → Nat → Instr} {op : Op}
    (hmap : ∀ f : Fields, opcodeMap opcode f = mk f.r f.s f.t)
    (hexec : ∀ r src1 src2 s, exec (mk r src1 src2) s = finish s (addRegisters op r src1 src2 s)) :
    Statements.AddsAs opcode.toChar mk op := by
  intro st r s t hr hs ht
  rw [hexec]
  refine ⟨?encoding, fun a b ha hb => ?sum, fun ha => ?source1, fun a ha hb => ?source2⟩
  case encoding => rw [decode_three_registers opcode hr hs ht, hmap]
  case sum =>
    rw [addRegisters_ok hs ht op hr ha hb, finish_ok]
    rfl
  case source1 =>
    rw [addRegisters_error_src1 hs ht op ha, finish_error]
    rfl
  case source2 =>
    rw [addRegisters_error_src2 hs ht op ha hb, finish_error]
    rfl

/-! ### The obligations -/

/-- Settles O19: opcode 5 is the shared add with ADD-INT in its records. -/
theorem addIntSumsOrRaises : Obligations.AddIntSumsOrRaises :=
  addsAs_of_addRegisters (opcode := .op5) (fun _ => rfl) exec_addInt_eq

/-- Settles O20: opcode 6 is the same add with ADD-FLOAT in its records. -/
theorem addFloatSumsOrRaises : Obligations.AddFloatSumsOrRaises :=
  addsAs_of_addRegisters (opcode := .op6) (fun _ => rfl) exec_addFloat_eq

end Sys2Proof.Machine
end

section
/-!
PROOFS. HALT (spec 43_control.md R105): the codes that decode to it, its meaning, and the stopped machine it leaves.

HALT has no operand field, so its three other digits only have to pass the checks of R58; that no later step executes is a
fact about every stopped machine (R87), not about HALT.
-/

namespace Sys2Proof.Machine

/-! ### Codes whose operand digits are free -/

/-- Three characters that pass the checks of R58 give some fields; a row of the opcode map that reads none of them is then
decoded whatever the digits are. -/
theorem decode_digits (op : Opcode) {c1 c2 c3 : Char} (h1 : Statements.isDigit c1) (h2 : Statements.isDigit c2)
    (h3 : Statements.isDigit c3) : ∃ f, decode [op.toChar, c1, c2, c3] = .instr (opcodeMap op f) := by
  obtain ⟨r, hr⟩ := Option.isSome_iff_exists.mp h1
  obtain ⟨u, hu⟩ := Option.isSome_iff_exists.mp h2
  obtain ⟨v, hv⟩ := Option.isSome_iff_exists.mp h3
  exact ⟨_, decode_fields (ofChar_toChar op) hr hu hv⟩

/-! ### HALT's meaning, and a step of a stopped machine -/

theorem exec_halt_eq (s : State) : exec .halt s = .next (halt .haltInstruction s) := rfl

/-- Of the ways `step_cases` lists, every other one asks for a Running machine. -/
theorem step_of_not_running {s : State} (hstop : s.status ≠ .running) : step s = .next s := by
  rcases step_cases s with ⟨-, e⟩ | ⟨hrun, -⟩ | ⟨hrun, -⟩
  · exact e
  · exact absurd hrun hstop
  · exact absurd hrun hstop

/-- No step executes after a halt, whatever its cause. -/
theorem step_halt (cause : HaltCause) (s : State) : step (halt cause s) = .next (halt cause s) :=
  step_of_not_running (by rw [halt_status]; decide)

/-! ### The obligation -/

/-- Settles O23: row C of the opcode map reads no field, so any three digits decode to HALT; its meaning is `halt`, whose
state no step leaves. -/
theorem haltStopsTheMachine : Obligations.HaltStopsTheMachine := by
  intro s c1 c2 c3 h1 h2 h3
  obtain ⟨f, hdecode⟩ := decode_digits .opC h1 h2 h3
  exact ⟨hdecode, exec_halt_eq s, step_halt .haltInstruction s⟩

end Sys2Proof.Machine
end

section
/-!
PROOFS. The decoder and the encoder (spec 30_encoding.md R55 to R74): every answer of decode, the round trips in both
directions, and the agreement with the opcode table.

A code that decodes is four digits; the opcode map and the encoder are then compared row by row, on the same four characters.
-/

namespace Sys2Proof.Machine

open Sys2Proof.Statements

/-! ### What decode answers, by the first characters that fail (R58) -/

/-- The opcode check passes the digits (R58). -/
theorem ofChar_of_isDigit {c : Char} (h : isDigit c) : ∃ op, Opcode.ofChar c = some op := by
  rw [← Option.ne_none_iff_exists', ne_eq, ofChar_none_iff]
  exact Option.isSome_iff_ne_none.mp h

theorem hexDigit_of_not_isDigit {c : Char} (h : ¬ isDigit c) : hexDigit c = none :=
  Option.not_isSome_iff_eq_none.mp h

section
variable {c0 c1 c2 c3 : Char} {rest : Cell}

theorem decode_bad_opcode (h0 : ¬ isDigit c0) :
    decode (c0 :: c1 :: c2 :: c3 :: rest) = .badValue [c0] .opcode := by
  have none0 := (ofChar_none_iff c0).mpr (hexDigit_of_not_isDigit h0)
  simp only [decode, none0]

theorem decode_bad_register (h0 : isDigit c0) (h1 : ¬ isDigit c1) :
    decode (c0 :: c1 :: c2 :: c3 :: rest) = .badValue [c1] .register := by
  obtain ⟨op, hop⟩ := ofChar_of_isDigit h0
  simp only [decode, hop, hexDigit_of_not_isDigit h1]

theorem decode_bad_operand (h0 : isDigit c0) (h1 : isDigit c1) (h23 : ¬ (isDigit c2 ∧ isDigit c3)) :
    decode (c0 :: c1 :: c2 :: c3 :: rest) = .badValue [c2, c3] .operand := by
  obtain ⟨op, hop⟩ := ofChar_of_isDigit h0
  obtain ⟨r, hr⟩ := Option.isSome_iff_exists.mp h1
  simp only [decode, hop, hr]
  split
  · next s t h2 h3 => exact absurd ⟨Option.isSome_of_mem h2, Option.isSome_of_mem h3⟩ h23
  · rfl

theorem decode_four_digits (h0 : isDigit c0) (h1 : isDigit c1) (h2 : isDigit c2) (h3 : isDigit c3) :
    ∃ i, decode (c0 :: c1 :: c2 :: c3 :: rest) = .instr i := by
  obtain ⟨op, hop⟩ := ofChar_of_isDigit h0
  obtain ⟨r, hr⟩ := Option.isSome_iff_exists.mp h1
  obtain ⟨s, hs⟩ := Option.isSome_iff_exists.mp h2
  obtain ⟨t, ht⟩ := Option.isSome_iff_exists.mp h3
  exact ⟨_, decode_fields hop hr hs ht⟩

end

/-- Each check of R58 names its own field, so four characters are never MALFORMED. -/
theorem decode_ne_malformed_of_length {code : Cell} (h : 4 ≤ code.length) : decode code ≠ .malformed := by
  obtain ⟨c0, c1, c2, c3, rest, rfl⟩ := four_of_length h
  by_cases h0 : isDigit c0
  · by_cases h1 : isDigit c1
    · by_cases h23 : isDigit c2 ∧ isDigit c3
      · obtain ⟨i, hi⟩ := decode_four_digits (rest := rest) h0 h1 h23.1 h23.2
        simp [hi]
      · simp [decode_bad_operand h0 h1 h23]
    · simp [decode_bad_register h0 h1]
  · simp [decode_bad_opcode h0]

theorem decode_eq_malformed_iff (code : Cell) : decode code = .malformed ↔ code.length < 4 :=
  ⟨fun hd => Nat.lt_of_not_le fun h => decode_ne_malformed_of_length h hd, decode_eq_malformed_of_short⟩

/-! ### The encoder against the opcode map -/

/-- The two digits of an operand field are the byte they spell (R59, R63). -/
theorem hexByte_of_digits {c2 c3 : Char} {s t : Nat} (h2 : hexDigit c2 = some s) (h3 : hexDigit c3 = some t) :
    hexByte (16 * s + t) = [c2, c3] := by
  obtain ⟨hs, rfl⟩ := hexDigit_some h2
  obtain ⟨ht, rfl⟩ := hexDigit_some h3
  have high : (16 * s + t) / 16 = s := by omega
  have low : (16 * s + t) % 16 = t := by omega
  rw [hexByte, high, low]

/-- Row by row: a row that keeps its fields writes the three digits they came from, any other writes zeros (R72). -/
theorem operandText_opcodeMap (op : Opcode) {c1 c2 c3 : Char} {r s t : Nat} (h1 : hexDigit c1 = some r)
    (h2 : hexDigit c2 = some s) (h3 : hexDigit c3 = some t) :
    (opcodeMap op ⟨r, 16 * s + t, [c2, c3], s, t⟩).operandText =
      if keepsEveryField (opcodeMap op ⟨r, 16 * s + t, [c2, c3], s, t⟩) then [c1, c2, c3] else ['0', '0', '0'] := by
  have byte := hexByte_of_digits h2 h3
  have register := (hexDigit_some h1).2
  have source1 := (hexDigit_some h2).2
  have source2 := (hexDigit_some h3).2
  cases op <;> simp [opcodeMap, keepsEveryField, Instr.opcode, Instr.operandText, byte, register, source1, source2]

/-- A literal an encoding admits is two digits (R58, R91). -/
theorem literalField_digits {lit : Cell} (h : literalField lit = true) :
    ∃ c d u v, lit = [c, d] ∧ hexDigit c = some u ∧ hexDigit d = some v := by
  simp only [literalField, Bool.and_eq_true, decide_eq_true_eq, List.all_eq_true] at h
  obtain ⟨hlen, hdigits⟩ := h
  obtain ⟨c, d, rfl⟩ := List.length_eq_two.mp hlen
  obtain ⟨u, hu⟩ := Option.isSome_iff_exists.mp (hdigits c (by simp))
  obtain ⟨v, hv⟩ := Option.isSome_iff_exists.mp (hdigits d (by simp))
  exact ⟨c, d, u, v, rfl, hu, hv⟩

/-- What well-formedness says of the operand forms with two and with three fields (R61). -/
theorem register_byte_fields {r aa : Nat} (h : (registerField r && operandField aa) = true) : r < 16 ∧ aa < 256 := by
  simpa only [registerField, operandField, Bool.and_eq_true, decide_eq_true_eq] using h

theorem register_literal_fields {r : Nat} {lit : Cell} (h : (registerField r && literalField lit) = true) :
    r < 16 ∧ literalField lit = true := by
  simpa only [registerField, Bool.and_eq_true, decide_eq_true_eq] using h

theorem three_register_fields {r s t : Nat} (h : (registerField r && registerField s && registerField t) = true) :
    r < 16 ∧ s < 16 ∧ t < 16 := by
  simpa only [registerField, Bool.and_eq_true, decide_eq_true_eq, and_assoc] using h

/-- A row without fields decodes back from its opcode character and three zeros (R72). -/
theorem decode_zero_operands (op : Opcode) :
    decode [op.toChar, '0', '0', '0'] = .instr (opcodeMap op ⟨0, 0, ['0', '0'], 0, 0⟩) :=
  decode_fields (ofChar_toChar op) (hexDigit_hexChar 0) (hexDigit_hexChar 0) (hexDigit_hexChar 0)

/-! ### Ranges of the decoded fields -/

/-- Row by row: fields in the ranges of R61 make a well-formed instruction. -/
theorem opcodeMap_wellFormed (op : Opcode) {f : Fields} (hr : f.r < 16) (haa : f.aa < 256)
    (hlit : literalField f.lit = true) (hs : f.s < 16) (ht : f.t < 16) : (opcodeMap op f).wellFormed = true := by
  cases op <;> simp [opcodeMap, Instr.wellFormed, registerField, operandField, hr, haa, hlit, hs, ht]

theorem decode_wellFormed {code : Cell} {i : Instr} (h : decode code = .instr i) : i.wellFormed = true := by
  obtain ⟨c0, c1, c2, c3, rest, op, r, s, t, -, -, h1, h2, h3, rfl⟩ := decode_instr_cases h
  have hr := (hexDigit_some h1).1
  have hs := (hexDigit_some h2).1
  have ht := (hexDigit_some h3).1
  have haa : 16 * s + t < 256 := by omega
  have hlit : literalField [c2, c3] = true := by simp [literalField, h2, h3]
  exact opcodeMap_wellFormed op hr haa hlit hs ht

/-! ### The 16-bit view -/

/-- A value below 16 as an opcode: the one its digit selects (R60, R66). -/
theorem opcode_of_nibble (b : BitVec 4) : ∃ op, Opcode.toChar op = hexChar b.toNat := by
  obtain ⟨op, hop⟩ := ofChar_of_isDigit (hexChar_isDigit b.toNat)
  exact ⟨op, ofChar_some hop⟩

/-- The 16 bits are all of a word. -/
theorem tableCode_word (w : BitVec 16) : tableCode 16 w.toNat = wordCode w := by
  rw [tableCode, Nat.mod_eq_of_lt w.isLt, BitVec.ofNat_toNat, BitVec.setWidth_eq]

/-- The operand byte is its two digits. -/
theorem operand_byte_toNat (w : BitVec 16) :
    (w.extractLsb 7 0).toNat = 16 * (w.extractLsb 7 4).toNat + (w.extractLsb 3 0).toNat := by
  simp only [BitVec.extractLsb_toNat, Nat.shiftRight_eq_div_pow]
  omega

/-- The fields at the bit ranges of spec/opcode_table.json. -/
def wordFields (w : BitVec 16) : Fields where
  r := (w.extractLsb 11 8).toNat
  aa := (w.extractLsb 7 0).toNat
  lit := [hexChar (w.extractLsb 7 4).toNat, hexChar (w.extractLsb 3 0).toNat]
  s := (w.extractLsb 7 4).toNat
  t := (w.extractLsb 3 0).toNat

/-- The table's row is the opcode map's, on those fields. -/
theorem tableRow_eq {w : BitVec 16} {op : Opcode} (h : op.toChar = hexChar (w.extractLsb 15 12).toNat) :
    tableRow w = opcodeMap op (wordFields w) := by
  have value : hexDigit op.toChar = some (w.extractLsb 15 12).toNat := by
    rw [h]
    exact hexDigit_hexChar_of_lt (w.extractLsb 15 12).isLt
  unfold tableRow
  cases op <;> (rw [← Option.some.inj value]; rfl)

/-- The four digits of the 16-bit view are its four nibbles, and decode reads the fields off them. -/
theorem decode_wordCode {w : BitVec 16} {op : Opcode} (h : op.toChar = hexChar (w.extractLsb 15 12).toNat) :
    decode (wordCode w) = .instr (opcodeMap op (wordFields w)) := by
  have fields := decode_three_registers op (w.extractLsb 11 8).isLt (w.extractLsb 7 4).isLt (w.extractLsb 3 0).isLt
  rw [h, ← operand_byte_toNat] at fields
  exact fields

theorem decode_wordCode_eq_tableRow (w : BitVec 16) : decode (wordCode w) = .instr (tableRow w) := by
  obtain ⟨op, hop⟩ := opcode_of_nibble (w.extractLsb 15 12)
  rw [decode_wordCode hop, tableRow_eq hop]

theorem decodeTableWord_eq (w : BitVec 16) : decodeTableWord 16 w.toNat = some (tableRow w) := by
  rw [decodeTableWord, tableCode_word, decode_wordCode_eq_tableRow]

/-! ### The obligations -/

/-- Settles O1: each operand form encodes to digits that decode back to its fields; a row without operands is written with
zeros, which it does not read. -/
theorem decodeOfEncodeIsTheInstruction : Obligations.DecodeOfEncodeIsTheInstruction := by
  intro i hwf
  cases i with
  | loadMem r aa | store r aa | move r aa | jumpEq r aa =>
    obtain ⟨hr, haa⟩ := register_byte_fields hwf
    exact decode_register_byte _ hr haa
  | loadImm r lit =>
    obtain ⟨hr, hlit⟩ := register_literal_fields hwf
    obtain ⟨c, d, u, v, rfl, hc, hd⟩ := literalField_digits hlit
    exact decode_register_literal .op2 hr hc hd
  | addInt r s t | addFloat r s t =>
    obtain ⟨hr, hs, ht⟩ := three_register_fields hwf
    exact decode_three_registers _ hr hs ht
  | unrecognized0 | unrecognized7 | unrecognized8 | unrecognized9 | unrecognizedA | halt | unrecognizedD | unrecognizedE
  | unrecognizedF => exact decode_zero_operands _

/-- Settles O2: the opcode character is the one the code began with, and the operand text is the three digits after it where
the row keeps them. -/
theorem encodeOfDecodeIsTheCode : Obligations.EncodeOfDecodeIsTheCode := by
  intro code i h
  obtain ⟨c0, c1, c2, c3, rest, op, r, s, t, rfl, h0, h1, h2, h3, rfl⟩ := decode_instr_cases h
  have text := operandText_opcodeMap op h1 h2 h3
  simp only [encode, opcode_opcodeMap, ofChar_some h0, text]
  constructor
  · intro keeps
    rw [if_pos keeps]
    rfl
  · intro drops
    rw [drops]
    rfl

/-- Settles O3: the fields are digit values, and the literal is the two characters that passed the operand check. -/
theorem decodedInstructionsAreWellFormed : Obligations.DecodedInstructionsAreWellFormed :=
  fun _ _ h => decode_wellFormed h

/-- Settles O5: every check on four or more characters names a field, and none is made on fewer. -/
theorem shortCodesAreMalformed : Obligations.ShortCodesAreMalformed :=
  ⟨decode_eq_malformed_iff, decode_eq_malformed_of_short (by decide), decode_eq_malformed_of_short (by decide)⟩

/-- Settles O6: one clause per answer of decode. -/
theorem badDigitsAreNamedInOrder : Obligations.BadDigitsAreNamedInOrder := by
  intro c0 c1 c2 c3 rest
  exact ⟨decode_bad_opcode, decode_bad_register, decode_bad_operand, decode_four_digits⟩

/-- Settles O7: the opcode nibble selects the same row in the table and in the opcode map, and the other nibbles are the
fields. -/
theorem decoderAgreesWithTheOpcodeTable : Obligations.DecoderAgreesWithTheOpcodeTable :=
  decodeTableWord_eq

/-- Settles O4: decode looks at the first four characters only, and these are not in the appended part. -/
theorem decodeIgnoresLaterCharacters : Obligations.DecodeIgnoresLaterCharacters := by
  intro code rest h
  obtain ⟨c0, c1, c2, c3, tail, rfl⟩ := four_of_length h
  rfl

/-- Settles O8: nine closed codes, each evaluated. -/
theorem sampleCodesDecode : Obligations.SampleCodesDecode :=
  ⟨rfl, rfl, rfl, rfl, rfl, rfl, rfl, rfl, rfl⟩

end Sys2Proof.Machine
end

section
/-!
PROOFS. The ArithmeticUnit (spec 42_arithmetic.md R94 to R99): parsing is the positional sum, and rendering is its inverse on
strings without leading zeros.

Rendering peels digits off at the right, so parsing is first said at the right too (`hexSum_append_digit`); after that both
directions are inductions on the last digit.
-/

namespace Sys2Proof.Machine

open Sys2Proof.Statements

/-! ### Parsing -/

theorem hexSum_cons {c : Char} {cs : Cell} {d v : Nat} (hd : hexDigit c = some d) (hv : hexSum cs = some v) :
    hexSum (c :: cs) = some (d * 16 ^ cs.length + v) := by
  simp only [hexSum, hd, hv]

/-- A string parses only digit by digit. -/
theorem hexSum_cons_some {c : Char} {cs : Cell} {w : Nat} (h : hexSum (c :: cs) = some w) :
    ∃ d v, hexDigit c = some d ∧ hexSum cs = some v ∧ w = d * 16 ^ cs.length + v := by
  unfold hexSum at h
  split at h
  · next d v hd hv => exact ⟨d, v, hd, hv, (Option.some.inj h).symm⟩
  · cases h

theorem hexSum_none_of_mem {cs : Cell} {c : Char} (hmem : c ∈ cs) (hc : hexDigit c = none) : hexSum cs = none := by
  induction cs with
  | nil => cases hmem
  | cons b bs ih =>
    rw [Option.eq_none_iff_forall_ne_some]
    intro w hw
    obtain ⟨d, v, hd, hv, -⟩ := hexSum_cons_some hw
    rcases List.mem_cons.mp hmem with rfl | hmem
    · simp [hc] at hd
    · simp [ih hmem] at hv

/-- The sum of R95, each digit by its place. -/
theorem hexSum_eq_sum {cs : Cell} (h : ∀ c ∈ cs, isDigit c) :
    hexSum cs = some (∑ i : Fin cs.length, (hexDigit cs[i]).getD 0 * 16 ^ (cs.length - 1 - i)) := by
  induction cs with
  | nil => rfl
  | cons c cs ih =>
    obtain ⟨d, hd⟩ := Option.isSome_iff_exists.mp (h c (by simp))
    have tail := ih fun b hb => h b (List.mem_cons_of_mem _ hb)
    have place : ∀ i : Fin cs.length, cs.length - (i.val + 1) = cs.length - 1 - i.val := by omega
    rw [hexSum_cons hd tail, Option.some_inj]
    refine Eq.trans ?_ (Fin.sum_univ_succ (n := cs.length) _).symm
    simp [hd, place]

/-- Parsing a string with one more digit at the right. -/
theorem hexSum_append_digit {c : Char} {d : Nat} (hd : hexDigit c = some d) :
    ∀ {cs : Cell} {v : Nat}, hexSum cs = some v → hexSum (cs ++ [c]) = some (16 * v + d)
  | [], v, hv => by
    obtain rfl : 0 = v := Option.some.inj hv
    simp [hexSum, hd]
  | b :: bs, w, hw => by
    obtain ⟨e, v, he, hv, rfl⟩ := hexSum_cons_some hw
    rw [List.cons_append, hexSum_cons he (hexSum_append_digit hd hv), List.length_append, List.length_singleton, pow_succ]
    congr 1
    ring

/-- Backwards: a string with a last digit parses as the string before it and the digit. -/
theorem hexSum_append_some {c : Char} : ∀ {cs : Cell} {w : Nat}, hexSum (cs ++ [c]) = some w →
    ∃ v d, hexSum cs = some v ∧ hexDigit c = some d ∧ w = 16 * v + d
  | [], w, h => by
    obtain ⟨d, v, hd, hv, rfl⟩ := hexSum_cons_some h
    obtain rfl : 0 = v := Option.some.inj hv
    exact ⟨0, d, rfl, hd, by simp⟩
  | b :: bs, w, h => by
    rw [List.cons_append] at h
    obtain ⟨e, u, he, hu, rfl⟩ := hexSum_cons_some h
    obtain ⟨v, d, hv, hd, rfl⟩ := hexSum_append_some hu
    refine ⟨_, d, hexSum_cons he hv, hd, ?_⟩
    rw [List.length_append, List.length_singleton, pow_succ]
    ring

theorem hexToInt_eq_hexSum {c : Cell} (h : c ≠ []) : hexToInt c = hexSum c := by
  simp [hexToInt, h]

theorem hexToInt_some {c : Cell} {v : Nat} (h : hexToInt c = some v) : hexSum c = some v := by
  by_cases hc : c = []
  · subst hc
    cases h
  · rwa [hexToInt_eq_hexSum hc] at h

/-! ### Rendering, without its fuel -/

/-- Fuel past the number does not matter. -/
theorem hexDigits_fuel {n : Nat} : ∀ {f g : Nat}, n < f → n < g → hexDigits f n = hexDigits g n := by
  induction n using Nat.strong_induction_on with
  | _ n ih =>
    intro f g hf hg
    obtain ⟨f, rfl⟩ := Nat.exists_eq_add_one_of_ne_zero (Nat.ne_zero_of_lt hf)
    obtain ⟨g, rfl⟩ := Nat.exists_eq_add_one_of_ne_zero (Nat.ne_zero_of_lt hg)
    unfold hexDigits
    split
    · rfl
    · rw [ih (n / 16) (by omega) (f := f) (g := g) (by omega) (by omega)]

theorem intToHex_of_lt {n : Nat} (h : n < 16) : intToHex n = [hexChar n] :=
  if_pos h

theorem intToHex_of_ge {n : Nat} (h : 16 ≤ n) : intToHex n = intToHex (n / 16) ++ [hexChar (n % 16)] := by
  have fewer : hexDigits n (n / 16) = intToHex (n / 16) := hexDigits_fuel (by omega) (by omega)
  rw [← fewer]
  exact if_neg (Nat.not_lt.mpr h)

/-- A property of rendered numbers, from one digit and from a digit appended to a positive number. -/
theorem intToHex_induction {P : Nat → Cell → Prop} (one : ∀ d < 16, P d [hexChar d])
    (more : ∀ v d, 0 < v → d < 16 → P v (intToHex v) → P (16 * v + d) (intToHex v ++ [hexChar d])) (n : Nat) :
    P n (intToHex n) := by
  induction n using Nat.strong_induction_on with
  | _ n ih =>
    rcases Nat.lt_or_ge n 16 with h | h
    · rw [intToHex_of_lt h]
      exact one n h
    · have next := more (n / 16) (n % 16) (by omega) (by omega) (ih (n / 16) (by omega))
      rwa [Nat.div_add_mod, ← intToHex_of_ge h] at next

theorem hexSum_intToHex (n : Nat) : hexSum (intToHex n) = some n := by
  refine intToHex_induction (P := fun n c => hexSum c = some n) (fun d hd => ?_) (fun v d _ hd ih => ?_) n
  · simp [hexSum, hexDigit_hexChar_of_lt hd]
  · exact hexSum_append_digit (hexDigit_hexChar_of_lt hd) ih

theorem intToHex_digits (n : Nat) : ∀ c ∈ intToHex n, isDigit c := by
  refine intToHex_induction (P := fun _ c => ∀ b ∈ c, isDigit b) (fun d _ => ?_) (fun v d _ _ ih => ?_) n
  · simpa only [List.forall_mem_singleton] using hexChar_isDigit d
  · rw [List.forall_mem_append, List.forall_mem_singleton]
    exact ⟨ih, hexChar_isDigit d⟩

/-- The only digit that is '0' is that of the value 0. -/
theorem hexChar_eq_zero {d : Nat} (hd : d < 16) (h : hexChar d = '0') : d = 0 := by
  have value := hexDigit_hexChar_of_lt hd
  rw [h] at value
  exact (Option.some.inj value).symm

theorem intToHex_head (n : Nat) : ∃ c cs, intToHex n = c :: cs ∧ (c = '0' → n = 0 ∧ cs = []) := by
  refine intToHex_induction (P := fun n text => ∃ c cs, text = c :: cs ∧ (c = '0' → n = 0 ∧ cs = []))
    (fun d hd => ?_) (fun v d hv _ ih => ?_) n
  · exact ⟨hexChar d, [], rfl, fun h => ⟨hexChar_eq_zero hd h, rfl⟩⟩
  · obtain ⟨c, cs, e, hc⟩ := ih
    exact ⟨c, cs ++ [hexChar d], by rw [e, List.cons_append], fun h => absurd (hc h).1 (Nat.ne_of_gt hv)⟩

theorem intToHex_ne_nil (n : Nat) : intToHex n ≠ [] := by
  obtain ⟨c, cs, e, -⟩ := intToHex_head n
  rw [e]
  exact List.cons_ne_nil c cs

theorem hexToInt_intToHex (n : Nat) : hexToInt (intToHex n) = some n := by
  rw [hexToInt_eq_hexSum (intToHex_ne_nil n), hexSum_intToHex]

/-! ### Leading zeros -/

theorem hexSum_zero_cons (cs : Cell) : hexSum ('0' :: cs) = hexSum cs := by
  have zero : hexDigit '0' = some 0 := rfl
  cases h : hexSum cs with
  | some v => rw [hexSum_cons zero h, Nat.zero_mul, Nat.zero_add]
  | none => simp only [hexSum, zero, h]

theorem hexSum_dropWhile_zero (cs : Cell) : hexSum (cs.dropWhile (fun d => d = '0')) = hexSum cs := by
  induction cs with
  | nil => rfl
  | cons c cs ih =>
    by_cases hc : c = '0'
    · subst hc
      rw [List.dropWhile_cons_of_pos (by simp), ih, hexSum_zero_cons]
    · rw [List.dropWhile_cons_of_neg (by simpa using hc)]

/-- A string whose first digit is not '0' parses to a positive number. -/
theorem hexSum_pos {c : Char} {cs : Cell} {v : Nat} (hc : c ≠ '0') (h : hexSum (c :: cs) = some v) : 0 < v := by
  obtain ⟨d, u, hd, -, rfl⟩ := hexSum_cons_some h
  have nonzero : 0 < d := by
    refine Nat.pos_of_ne_zero fun e => hc ?_
    rw [← (hexDigit_some hd).2, e]
    rfl
  positivity

/-- A string without a leading zero is the rendering of its value: by induction on the last digit. -/
theorem intToHex_of_hexSum {c : Char} (hc : c ≠ '0') (cs : Cell) :
    ∀ {v : Nat}, hexSum (c :: cs) = some v → intToHex v = c :: cs := by
  induction cs using List.reverseRecOn with
  | nil =>
    intro v h
    obtain ⟨d, u, hd, hu, rfl⟩ := hexSum_cons_some h
    obtain rfl : 0 = u := Option.some.inj hu
    obtain ⟨small, rfl⟩ := hexDigit_some hd
    simpa using intToHex_of_lt small
  | append_singleton bs b ih =>
    intro w h
    rw [← List.cons_append] at h
    obtain ⟨v, d, hv, hd, rfl⟩ := hexSum_append_some h
    obtain ⟨small, rfl⟩ := hexDigit_some hd
    have positive := hexSum_pos hc hv
    have quotient : (16 * v + d) / 16 = v := by omega
    have remainder : (16 * v + d) % 16 = d := by omega
    rw [intToHex_of_ge (by omega), quotient, remainder, ih hv, List.cons_append]

/-! ### The obligations -/

/-- Settles O9: by induction on the digits rendered, each parsed at the right. -/
theorem hexToIntOfIntToHex : Obligations.HexToIntOfIntToHex :=
  hexToInt_intToHex

/-- Settles O10: every character is a digit's, and the first is that of a positive number unless it stands alone. -/
theorem intToHexIsCanonical : Obligations.IntToHexIsCanonical :=
  fun v => ⟨intToHex_digits v, intToHex_head v⟩

/-- Settles O11: dropping zeros keeps the value; what is left has no leading zero, so it is the rendering, or is empty, and
then the value is 0. -/
theorem intToHexRemovesLeadingZeros : Obligations.IntToHexRemovesLeadingZeros := by
  intro c v h
  have value := hexToInt_some h
  rw [← hexSum_dropWhile_zero] at value
  unfold withoutLeadingZeros
  split
  · next e =>
    rw [e] at value
    obtain rfl : 0 = v := Option.some.inj value
    rfl
  · next d ds e =>
    have nonzero : d ≠ '0' := by
      have stop := List.head_dropWhile_not (fun d => decide (d = '0')) (l := c) (by simp [e])
      simpa [e] using stop
    rw [e] at value
    exact intToHex_of_hexSum nonzero ds value

/-- Settles O12: the recursive sum fails at the first character without a value, and otherwise is the sum by places. -/
theorem hexToIntIsThePositionalSum : Obligations.HexToIntIsThePositionalSum := by
  intro text
  constructor
  · rintro (rfl | ⟨d, hmem, hd⟩)
    · rfl
    · rw [hexToInt_eq_hexSum (List.ne_nil_of_mem hmem), hexSum_none_of_mem hmem hd]
  · intro nonempty digits
    rw [hexToInt_eq_hexSum nonempty, hexSum_eq_sum digits]

end Sys2Proof.Machine
end

section
/-!
PROOFS. Memory access, loading and what the host reads (spec 20_memory.md R41, 70_reset_and_hazards.md R127 to R134,
10_state.md R35 and R36): the accesses at every integer index, a load read back, reset, the snapshot and the displays.
-/

namespace Sys2Proof.Machine

/-! ### Memory access at every integer index -/

theorem memRead_outside (s : State) {a : Int} (h : a < 0 ∨ (Config.nmem : Int) ≤ a) (op : Op) :
    memRead s a op = .error (.outOfRange .mem a .read op) :=
  if_neg (not_inRange_of_outside h)

theorem memWrite_outside (s : State) {a : Int} (h : a < 0 ∨ (Config.nmem : Int) ≤ a) (v : Cell) (op : Op) :
    memWrite s a v op = .error (.outOfRange .mem a .write op) :=
  if_neg (not_inRange_of_outside h)

/-- Settles O14: an index in range is an address, where a write keeps the canonical form and reads back; any other index
fails the accessors' test. -/
theorem memoryAccessContract : Obligations.MemoryAccessContract := by
  intro s a v op hwf
  constructor
  · intro hlow hhigh
    obtain ⟨n, rfl⟩ := Int.eq_ofNat_of_zero_le hlow
    have hn : n < Config.nmem := Int.ofNat_lt.mp hhigh
    refine ⟨memRead_ok hn op, s.mem.write n v, memWrite_ok hn v op, write_wf hwf hn v, fun b hb hb' => ?_⟩
    obtain ⟨k, rfl⟩ := Int.eq_ofNat_of_zero_le hb
    have hk : k < Config.nmem := Int.ofNat_lt.mp hb'
    rw [memRead_ok hk, read_write hwf]
    simp only [Int.natCast_inj, Int.toNat_natCast]
  · intro hout
    have hwrite := memWrite_outside s hout v op
    refine ⟨memRead_outside s hout op, hwrite, ?_⟩
    rw [hwrite, finish_error]
    rfl

/-! ### Loading -/

/-- Reading after a load of cells at ascending addresses: the cell loaded there, and elsewhere what was there before. -/
theorem read_writeFrom {cells : List Cell} : ∀ {m : Memory} {a : Nat}, m.wf → a + cells.length ≤ Config.nmem → ∀ b : Nat,
    (m.writeFrom a cells).read b = if a ≤ b then cells.getD (b - a) (m.read b) else m.read b := by
  induction cells with
  | nil =>
    intro m a _ _ b
    simp [Memory.writeFrom]
  | cons c cs ih =>
    intro m a hm hlen b
    rw [List.length_cons] at hlen
    rw [Memory.writeFrom, ih (write_wf hm (by omega) c) (by omega), read_write hm]
    rcases Nat.lt_trichotomy b a with hlt | rfl | hgt
    · rw [if_neg (by omega), if_neg (by omega), if_neg (by omega)]
    · rw [if_neg (by omega), if_pos rfl, if_pos (Nat.le_refl b), Nat.sub_self, List.getD_cons_zero]
    · obtain ⟨k, rfl⟩ := Nat.exists_eq_add_of_lt hgt
      have before : a + k + 1 - (a + 1) = k := by omega
      have after : a + k + 1 - a = k + 1 := by omega
      rw [if_pos (by omega), if_neg (by omega), if_pos (by omega), before, after, List.getD_cons_succ]

/-- A load after reset writes memory only, and each address reads as the token written there, else as at reset. -/
theorem load_reset (program : List Cell) (outcome : LoadOutcome) :
    ∃ m : Memory, load program outcome State.reset = .next { State.reset with mem := m } ∧ m.wf ∧
      ∀ a, m.read a = (writtenTokens program outcome).getD a Config.initialCell := by
  have fits : 0 + (writtenTokens program outcome).length ≤ Config.nmem := by
    rw [Nat.zero_add]
    exact writtenTokens_length program outcome
  refine ⟨Memory.writeFrom [] 0 (writtenTokens program outcome), rfl, writeFrom_wf wf_nil fits, fun a => ?_⟩
  rw [read_writeFrom wf_nil fits, if_pos (Nat.zero_le a), Nat.sub_zero, read_nil]

theorem getD_take (l : List Cell) (k a : Nat) (d : Cell) : (l.take k).getD a d = if a < k then l.getD a d else d := by
  rw [List.getD_eq_getElem?_getD, List.getElem?_take]
  split
  · rw [List.getD_eq_getElem?_getD]
  · rfl

/-- Settles O52: the tokens written are the first 256, which is all an address below 256 sees. -/
theorem loadWritesTheProgram : Obligations.LoadWritesTheProgram := by
  intro program
  obtain ⟨m, hload, hwf, hread⟩ := load_reset program .success
  refine ⟨m, hload, hwf, fun a ha => ?_⟩
  rw [hread, writtenTokens, getD_take, if_pos ha]

/-- Settles O53: the tokens written are those before the failure, cut at 256 as well. -/
theorem failedLoadKeepsThePrefix : Obligations.FailedLoadKeepsThePrefix := by
  intro program k
  obtain ⟨m, hload, hwf, hread⟩ := load_reset program (.failureAfter k)
  refine ⟨m, hload, hwf, fun a ha => ?_⟩
  rw [hread, writtenTokens, getD_take, if_pos ha, getD_take]

/-! ### Reset -/

/-- Settles O35: no cell is listed at reset, and a Running machine has neither cause nor record. -/
theorem invariantHoldsAtReset : Obligations.InvariantHoldsAtReset := by
  refine ⟨wf_nil, Nat.zero_le _, ?_, ?_⟩
  · simp
  · simp

/-- Settles O37: one law of reset per field. -/
theorem controlStateAtReset : Obligations.ControlStateAtReset :=
  ⟨reset_pc, reset_ir, reset_status, reset_haltCause, reset_faultRecord, reset_diag⟩

/-- Settles O55: the cell at address 0 is the initial "00", too short to decode. -/
theorem emptyMachineHaltsAtOnce : Obligations.EmptyMachineHaltsAtOnce :=
  shortCodeHaltsWithDiagnostic State.reset rfl (by decide) (by decide)

/-! ### The snapshot and the displays -/

theorem snapshot_registers_getElem? (s : State) {n : Nat} (hn : n < Config.nreg) :
    (snapshot s).registers[n]? = some (s.x[n]'hn) := by
  simp [snapshot, hn]

theorem displayRegisters_getElem? (s : State) {n : Nat} (hn : n < Config.nreg) :
    (displayRegisters s)[n]? = some (n, s.x[n]'hn) := by
  simp [displayRegisters, hn]

theorem snapshot_memory_getElem? (s : State) {a : Nat} (ha : a < Config.nmem) :
    (snapshot s).memory[a]? = some (s.mem.read a) := by
  simp [snapshot, ha]

theorem displayMemory_getElem? (s : State) {a : Nat} (ha : a < Config.nmem) :
    (displayMemory s)[a]? = some (a, s.mem.read a) := by
  simp [displayMemory, ha]

/-- Settles O56: the lists range over the addresses in order, so each entry is the cell at its own index. -/
theorem snapshotShowsTheWholeState : Obligations.SnapshotShowsTheWholeState := by
  intro s
  have registers : (snapshot s).registers.length = 16 := s.x.length_toList
  have memory : (snapshot s).memory.length = 256 := by simp [snapshot]
  have shownRegisters : (displayRegisters s).length = 16 := by simp [displayRegisters]
  have shownMemory : (displayMemory s).length = 256 := by simp [displayMemory]
  exact ⟨rfl, rfl, rfl, rfl, registers, memory, shownRegisters, shownMemory,
    fun _ hn => ⟨snapshot_registers_getElem? s hn, displayRegisters_getElem? s hn⟩,
    fun _ ha => ⟨snapshot_memory_getElem? s ha, displayMemory_getElem? s ha⟩⟩

end Sys2Proof.Machine
end

section
/-!
PROOFS. The remaining meanings (spec 42_arithmetic.md R98, 43_control.md R104 and R107, 30_encoding.md R73, 40_engine.md R82):
swapped add sources, JUMP-EQ, the unrecognized opcodes, the pseudo-instructions, and what every meaning has in common: it
answers a next state, and the ControlUnit operations do not see `ir` and the log.
-/

namespace Sys2Proof.Machine

open Sys2Proof.Statements

/-! ### Swapped add sources -/

/-- With both sources parsed, what is left of an add is the write of the sum; the destination need not be in range. -/
theorem addRegisters_of_parsed {s : State} {src1 src2 a b : Nat} (h1 : src1 < Config.nreg) (h2 : src2 < Config.nreg)
    (ha : hexToInt (s.x[src1]'h1) = some a) (hb : hexToInt (s.x[src2]'h2) = some b) (op : Op) (r : Nat) :
    addRegisters op r src1 src2 s = dstRegister s r (addHex a b) op := by
  rw [addRegisters_eq h1 h2, parseHex_ok ha, except_ok_bind, parseHex_ok hb, except_ok_bind]

theorem addHex_comm (a b : Nat) : addHex a b = addHex b a := by
  rw [addHex, addHex, Nat.add_comm]

/-- Settles O21: both orders write the same sum. -/
theorem addSourcesCommute : Obligations.AddSourcesCommute := by
  intro st r s t hs ht hexS hexT
  obtain ⟨a, ha⟩ := Option.isSome_iff_exists.mp hexS
  obtain ⟨b, hb⟩ := Option.isSome_iff_exists.mp hexT
  have swap : ∀ op, addRegisters op r s t st = addRegisters op r t s st := fun op => by
    rw [addRegisters_of_parsed hs ht ha hb, addRegisters_of_parsed ht hs hb ha, addHex_comm]
  exact ⟨by rw [exec_addInt_eq, exec_addInt_eq, swap], by rw [exec_addFloat_eq, exec_addFloat_eq, swap]⟩

/-! ### JUMP-EQ -/

theorem exec_jumpEq_eq (r aa : Nat) (s : State) :
    exec (.jumpEq r aa) s =
      finish s (srcRegister s r .jumpEq >>= fun a => srcRegister s 0 .jumpEq >>= fun b =>
        .ok (if cellsEqual a b then s.withPc aa else s)) := rfl

/-- The target is not checked (R108). -/
theorem exec_jumpEq {r : Nat} (hr : r < Config.nreg) (aa : Nat) (s : State) :
    exec (.jumpEq r aa) s = .next (if (s.x[r]'hr) = s.x[0] then s.withPc aa else s) := by
  have zero : 0 < Config.nreg := by decide
  rw [exec_jumpEq_eq, srcRegister_ok hr, except_ok_bind, srcRegister_ok zero, except_ok_bind, finish_ok]
  simp only [cellsEqual, decide_eq_true_eq]

/-- Settles O22: both cells are read in range, and the comparison decides the write of `pc`. -/
theorem jumpEqComparesCells : Obligations.JumpEqComparesCells := by
  intro s r aa hr haa
  refine ⟨decode_register_byte .opB hr haa, fun heq => ?_, fun hne => ?_⟩
  · rw [exec_jumpEq hr, if_pos heq]
    rfl
  · rw [exec_jumpEq hr, if_neg hne]

/-! ### The unrecognized opcodes -/

/-- What the eight rows have in common: the row of the opcode map reads no field, and its meaning is one report. -/
theorem unrecognizedRows_report {row : Char × Instr} (h : row ∈ unrecognizedRows) :
    ∃ op : Opcode, op.toChar = row.1 ∧ (∀ f, opcodeMap op f = row.2) ∧
      ∀ s, exec row.2 s = .next (reportUnrecognized op s) := by
  simp only [unrecognizedRows, List.mem_cons, List.not_mem_nil, or_false] at h
  rcases h with rfl | rfl | rfl | rfl | rfl | rfl | rfl | rfl
  · exact ⟨.op0, rfl, fun _ => rfl, fun _ => rfl⟩
  · exact ⟨.op7, rfl, fun _ => rfl, fun _ => rfl⟩
  · exact ⟨.op8, rfl, fun _ => rfl, fun _ => rfl⟩
  · exact ⟨.op9, rfl, fun _ => rfl, fun _ => rfl⟩
  · exact ⟨.opA, rfl, fun _ => rfl, fun _ => rfl⟩
  · exact ⟨.opD, rfl, fun _ => rfl, fun _ => rfl⟩
  · exact ⟨.opE, rfl, fun _ => rfl, fun _ => rfl⟩
  · exact ⟨.opF, rfl, fun _ => rfl, fun _ => rfl⟩

/-- Settles O24: any three digits decode to a row that reads none, and its meaning is the report. -/
theorem unrecognizedOpcodesReport : Obligations.UnrecognizedOpcodesReport := by
  intro s c1 c2 c3 h1 h2 h3 row hrow
  obtain ⟨op, hchar, hmap, hexec⟩ := unrecognizedRows_report hrow
  obtain ⟨f, hdecode⟩ := decode_digits op h1 h2 h3
  rw [hchar, hmap] at hdecode
  refine ⟨hdecode, ?_⟩
  rw [hexec, reportUnrecognized_eq, hchar]
  rfl

/-! ### The pseudo-instructions -/

/-- Settles O25: each expansion on the fields it gives; NOP writes register 0 with its own cell, and CANON adds zero. -/
theorem pseudoInstructionsMean : Obligations.PseudoInstructionsMean := by
  intro s
  have zero : 0 < Config.nreg := by decide
  refine ⟨?nop, fun aa => ?jump, fun r hr => ?clear, fun d r hd hr => ?copy, fun r z v hr hz hzero hv => ?canon⟩
  case nop =>
    rw [Pseudo.expand, exec_move zero zero, Vector.set_getElem_self]
    rfl
  case jump =>
    rw [Pseudo.expand, exec_jumpEq zero, if_pos rfl]
    rfl
  case clear => exact exec_loadImm hr ['0', '0'] s
  case copy => exact exec_move hr hd s
  case canon =>
    rw [Pseudo.expand, exec_addInt_eq, addRegisters_ok hr hz .addInt hr hv hzero, finish_ok]
    rfl

/-! ### Every meaning answers a next state -/

/-- An operation that raises is a next state too (R110). -/
theorem finish_answers (s : State) (result : Except FaultRecord State) : ∃ t, finish s result = .next t := by
  cases result with
  | ok t => exact ⟨t, finish_ok s t⟩
  | error f => exact ⟨raise f s, finish_error s f⟩

theorem exec_answers (i : Instr) (s : State) : ∃ t, exec i s = .next t := by
  cases i with
  | loadMem r aa | loadImm r lit | store r aa | move r aa | addInt r src1 src2 | addFloat r src1 src2 | jumpEq r aa =>
    exact finish_answers s _
  | halt => exact ⟨_, exec_halt_eq s⟩
  | unrecognized0 | unrecognized7 | unrecognized8 | unrecognized9 | unrecognizedA | unrecognizedD | unrecognizedE
  | unrecognizedF => exact ⟨_, rfl⟩

/-- Settles O33: the ways a step can go on are the four `step_cases` lists, the last being a meaning. -/
theorem everyStepAnswersANextState : Obligations.EveryStepAnswersANextState := by
  refine ⟨exec_answers, fun s => ?_⟩
  rcases step_cases s with ⟨-, e⟩ | ⟨-, -, e⟩ | ⟨-, -, ⟨-, e⟩ | ⟨text, site, -, e⟩ | ⟨i, -, e⟩⟩
  · exact ⟨_, e⟩
  · exact ⟨_, e⟩
  · exact ⟨_, e⟩
  · exact ⟨_, e⟩
  · rw [e]
    exact exec_answers i _

/-! ### The ControlUnit operations do not see `ir` and the log (R82) -/

/-- The state with another `ir` and another log. -/
def relog (c : Cell) (d : List Event) (s : State) : State := { s with ir := c, diag := d }

section
variable (c : Cell) (d : List Event)

theorem dstRegister_relog (s : State) (r : Nat) (v : Cell) (op : Op) :
    dstRegister (relog c d s) r v op = (dstRegister s r v op).map (relog c d) := by
  rcases Nat.lt_or_ge r Config.nreg with h | h
  · rw [dstRegister_ok h, dstRegister_ok h]
    rfl
  · rw [dstRegister_error h, dstRegister_error h]
    rfl

theorem dstMemory_relog (s : State) (aa : Nat) (v : Cell) (op : Op) :
    dstMemory (relog c d s) aa v op = (dstMemory s aa v op).map (relog c d) := by
  unfold dstMemory memWrite
  split
  · rfl
  · rfl

theorem srcRegister_relog (s : State) (r : Nat) (op : Op) : srcRegister (relog c d s) r op = srcRegister s r op := rfl

theorem srcMemory_relog (s : State) (aa : Nat) (op : Op) : srcMemory (relog c d s) aa op = srcMemory s aa op := rfl

/-- A read before an operation that goes through `relog` does not matter. -/
theorem bind_map_relog {α : Type} (read : Except FaultRecord α) (k : α → Except FaultRecord State) :
    (read >>= fun v => (k v).map (relog c d)) = (read >>= k).map (relog c d) := by
  cases read with
  | ok v => rfl
  | error f => rfl

theorem addRegisters_relog (op : Op) (r src1 src2 : Nat) (s : State) :
    addRegisters op r src1 src2 (relog c d s) = (addRegisters op r src1 src2 s).map (relog c d) := by
  simp only [addRegisters, srcRegister_relog, dstRegister_relog, bind_map_relog]

/-- An operation that goes through `relog` ends the same way, in a state that differs in the two fields only. -/
theorem finish_relog {s t : State} {result : Except FaultRecord State} (h : finish s result = .next t) :
    finish (relog c d s) (result.map (relog c d)) = .next (relog c d t) := by
  cases result with
  | ok u =>
    cases h
    rfl
  | error f =>
    cases h
    rfl

/-- With another `ir` and log, an operation answers the same state but for those. -/
theorem exec_relog {i : Instr} (hrow : ∀ row ∈ unrecognizedRows, i ≠ row.2) {s t : State} (h : exec i s = .next t) :
    exec i (relog c d s) = .next (relog c d t) := by
  cases i with
  | loadMem r aa | loadImm r lit | store r aa | move r aa | addInt r src1 src2 | addFloat r src1 src2 =>
    simp only [exec_loadMem_eq, exec_loadImm_eq, exec_store_eq, exec_move_eq, exec_addInt_eq, exec_addFloat_eq,
      srcRegister_relog, srcMemory_relog, dstRegister_relog, dstMemory_relog, addRegisters_relog, bind_map_relog]
    exact finish_relog c d h
  | jumpEq r aa =>
    rw [exec_jumpEq_eq] at h ⊢
    have jump : ∀ a b : Cell, (if cellsEqual a b then (relog c d s).withPc aa else relog c d s) =
        relog c d (if cellsEqual a b then s.withPc aa else s) := by
      intro a b
      split
      · rfl
      · rfl
    simp only [srcRegister_relog, jump]
    have mapped := finish_relog c d h
    simp only [← bind_map_relog] at mapped
    exact mapped
  | halt =>
    cases h
    rfl
  | unrecognized0 | unrecognized7 | unrecognized8 | unrecognized9 | unrecognizedA | unrecognizedD | unrecognizedE
  | unrecognizedF => simp [unrecognizedRows] at hrow

end

/-- Settles O26: `exec_relog`; that the two fields are left as they are is the case where they are not changed. -/
theorem operationsIgnoreIrAndDiagnostics : Obligations.OperationsIgnoreIrAndDiagnostics := by
  intro i s t c d hrow h
  have same : exec i s = .next (relog s.ir s.diag t) := exec_relog s.ir s.diag hrow h
  rw [h, Host.Outcome.next.injEq] at same
  exact ⟨by rw [same]; rfl, by rw [same]; rfl, exec_relog c d hrow h⟩

end Sys2Proof.Machine
end

section
/-!
PROOFS. The engine's step (spec 40_engine.md R76 to R89): which of its ways a step takes, the placed word, and repeated steps.
-/

namespace Sys2Proof.Machine

open Sys2Proof.Statements

/-! ### Which way a step takes -/

/-- A failed fetch ends the step before decode (R77). -/
theorem step_of_fetch_failed {s : State} (hrun : s.status = .running) (hpc : Config.nmem ≤ s.pc) :
    step s = .next (raise (.outOfRange .mem s.pc .read .fetch) s) := by
  rcases step_cases s with ⟨hstop, -⟩ | ⟨-, -, e⟩ | ⟨-, hlt, -⟩
  · exact absurd hrun hstop
  · exact e
  · exact absurd hlt (Nat.not_lt_of_le hpc)

/-- After a successful fetch the step is decode and dispatch (R78). -/
theorem step_of_fetched {s : State} (hrun : s.status = .running) (hpc : s.pc < Config.nmem) :
    step s = decodeDispatch exec (fetched (codeAt s) s) := by
  rcases fetch_cases s with ⟨-, e⟩ | ⟨hge, -⟩
  · simp only [step, engineStep, hrun, e]
  · exact absurd hpc (Nat.not_lt_of_le hge)

theorem step_eq_takeBadValue {s : State} {text : Cell} {site : Site} (hrun : s.status = .running)
    (hpc : s.pc < Config.nmem) (hd : decode (codeAt s) = .badValue text site) :
    step s = .next (takeBadValue text site (fetched (codeAt s) s)) := by
  rw [step_of_fetched hrun hpc]
  simp only [decodeDispatch, fetched_ir, hd]

theorem step_eq_exec {s : State} {i : Instr} (hrun : s.status = .running) (hpc : s.pc < Config.nmem)
    (hd : decode (codeAt s) = .instr i) : step s = exec i (fetched (codeAt s) s) := by
  rw [step_of_fetched hrun hpc]
  simp only [decodeDispatch, fetched_ir, hd]

/-- Settles O27: the state after the fetch is the one `fetched` leaves. -/
theorem stepRunsTheDecodedInstruction : Obligations.StepRunsTheDecodedInstruction :=
  fun _ _ hrun hpc hd => step_eq_exec hrun hpc hd

/-- Settles O30: decode and dispatch raise on the state after the fetch. -/
theorem badDigitFaultsAtDecode : Obligations.BadDigitFaultsAtDecode := by
  intro s text site hrun hpc hd
  rw [step_eq_takeBadValue hrun hpc hd]
  rfl

/-- Settles O31: the raise is on the state before the fetch. -/
theorem fetchPastMemoryFaults : Obligations.FetchPastMemoryFaults := by
  intro s hrun hpc
  rw [step_of_fetch_failed hrun hpc]
  rfl

/-! ### The placed word -/

theorem withFetchWord_eq {s : State} (hpc : s.pc < Config.nmem) (w : BitVec 16) :
    s.withFetchWord 16 w.toNat = s.withMem (s.mem.write s.pc (wordCode w)) := by
  rw [State.withFetchWord, tableCode_word, placeCode, if_pos hpc]

/-- Settles O28: the cell written at `pc` is the one the fetch reads, and its code decodes to the table's row. -/
theorem stepRunsThePlacedWord : Obligations.StepRunsThePlacedWord := by
  intro s w hrun hpc hwf
  refine ⟨tableRow w, decodeTableWord_eq w, ?_⟩
  rw [withFetchWord_eq hpc]
  have code : codeAt (s.withMem (s.mem.write s.pc (wordCode w))) = wordCode w := by
    rw [codeAt, withMem_mem, withMem_pc, read_write hwf, if_pos rfl]
  have decoded := decode_wordCode_eq_tableRow w
  rw [← code] at decoded
  have ran := step_eq_exec (s := s.withMem (s.mem.write s.pc (wordCode w))) hrun hpc decoded
  rw [ran, code]
  rfl

/-! ### Repeated steps -/

/-- A machine whose step changes nothing is the same after any number of steps. -/
theorem run_of_fixed {s : State} (h : step s = .next s) (n : Nat) : core.run n s = .next s := by
  induction n with
  | zero => exact core_run_zero s
  | succ n ih => rw [core_run_succ h, ih]

/-- What every step keeps holds after any number of steps. -/
theorem run_keeps {P : State → Prop} (keeps : ∀ s t, P s → step s = .next t → P t) (n : Nat) :
    ∀ {s t : State}, P s → core.run n s = .next t → P t := by
  induction n with
  | zero =>
    intro s t hs h
    rw [core_run_zero] at h
    cases h
    exact hs
  | succ n ih =>
    intro s t hs h
    obtain ⟨u, hu⟩ := everyStepAnswersANextState.2 s
    rw [core_run_succ hu] at h
    exact ih (keeps s u hs hu) h

/-- Settles O32: a stopped machine's step changes nothing. -/
theorem stoppedMachineNeverChanges : Obligations.StoppedMachineNeverChanges :=
  fun _ n hstop => run_of_fixed (step_of_not_running hstop) n

/-- A taken jump to its own address undoes the fetch's advance of `pc`. -/
theorem step_of_self_jump {s : State} {r : Nat} (hr : r < 16) (hrun : s.status = .running) (hpc : s.pc < 256)
    (heq : s.x[r] = s.x[0]) (hd : decode (codeAt s) = .instr (.jumpEq r s.pc)) :
    step s = .next { s with ir := codeAt s } := by
  rw [step_eq_exec hrun hpc hd, exec_jumpEq hr, fetched_x, if_pos heq]
  rfl

/-- Settles O49: the first step puts the code into `ir`; every later one leads back to the same state. -/
theorem selfJumpNeverEnds : Obligations.SelfJumpNeverEnds := by
  intro s r hr hrun hpc heq hd n
  rw [core_run_succ (step_of_self_jump hr hrun hpc heq hd)]
  exact run_of_fixed (step_of_self_jump (s := { s with ir := codeAt s }) hr hrun hpc heq hd) n

/-! ### The budgeted run -/

theorem runCall_of_not_running {s : State} (hstop : s.status ≠ .running) (budget : Nat) :
    runCall budget s = .ended s := by
  unfold runCall
  split
  · rfl
  · rfl
  · next hrun => exact absurd hrun hstop

theorem runCall_zero {s : State} (hrun : s.status = .running) : runCall 0 s = .budgetExhausted s := by
  simp only [runCall, hrun]

theorem runCall_succ {s t : State} (hrun : s.status = .running) (h : step s = .next t) (budget : Nat) :
    runCall (budget + 1) s = runCall budget t := by
  rw [runCall, hrun, h]

/-- Settles O50: by induction on the budget; a run ends where the machine has stopped, or where the budget has. -/
theorem runIsRepeatedStep : Obligations.RunIsRepeatedStep := by
  intro budget
  induction budget with
  | zero =>
    intro s
    by_cases hrun : s.status = .running
    · exact .inr ⟨s, runCall_zero hrun, core_run_zero s, hrun⟩
    · exact .inl ⟨s, 0, runCall_of_not_running hrun 0, Nat.le_refl 0, core_run_zero s, hrun⟩
  | succ budget ih =>
    intro s
    by_cases hrun : s.status = .running
    · obtain ⟨u, hu⟩ := everyStepAnswersANextState.2 s
      rw [runCall_succ hrun hu, core_run_succ hu]
      rcases ih u with ⟨t, k, hended, hk, hsteps, hstop⟩ | exhausted
      · exact .inl ⟨t, k + 1, hended, Nat.succ_le_succ hk, by rw [core_run_succ hu, hsteps], hstop⟩
      · exact .inr exhausted
    · exact .inl ⟨s, 0, runCall_of_not_running hrun _, Nat.zero_le _, core_run_zero s, hrun⟩

/-- Settles O51: by induction on the budget; the larger budget takes the same steps. -/
theorem runResultIsBudgetIndependent : Obligations.RunResultIsBudgetIndependent := by
  intro budget more
  induction budget with
  | zero =>
    intro s t h
    by_cases hrun : s.status = .running
    · rw [runCall_zero hrun] at h
      cases h
    · rw [runCall_of_not_running hrun] at h ⊢
      exact h
  | succ budget ih =>
    intro s t h
    by_cases hrun : s.status = .running
    · obtain ⟨u, hu⟩ := everyStepAnswersANextState.2 s
      rw [runCall_succ hrun hu] at h
      rw [Nat.succ_add, runCall_succ hrun hu]
      exact ih u t h
    · rw [runCall_of_not_running hrun] at h ⊢
      exact h

end Sys2Proof.Machine
end

section
/-!
PROOFS. What a step of a Running machine can do, said once: `Effect` for the decoded instruction on its state after the fetch,
`StepEffect` for the whole step. Each is tied to the model by one theorem (`effect_of_exec`, `stepEffect_of_step`).
-/

namespace Sys2Proof.Machine

open Sys2Proof.Statements

/-! ### The effect of a decoded instruction -/

/-- The cells an instruction can put into a register: copies, a literal, or a sum (R90, R91, R93, R101). -/
inductive Source (s : State) : Cell → Prop
  | register {n : Nat} (hn : n < Config.nreg) : Source s (s.x[n]'hn)
  | memory (a : Nat) : Source s (s.mem.read a)
  | literal {lit : Cell} (hlit : literalField lit = true) : Source s lit
  | sum (v : Nat) : Source s (intToHex v)

/-- Everything a well-formed instruction can do to the state its fetch has left. -/
inductive Effect (s : State) : Instr → State → Prop
  /-- One register written, the one the instruction names. -/
  | register {i : Instr} {r : Nat} {v : Cell} (hr : r < Config.nreg) (hdst : destinationOf i = some r) (hv : Source s v) :
      Effect s i (s.withX (s.x.set r v hr))
  /-- One memory cell written, by STORE. -/
  | memory {r aa : Nat} (hr : r < Config.nreg) (haa : aa < Config.nmem) :
      Effect s (.store r aa) (s.withMem (s.mem.write aa (s.x[r]'hr)))
  /-- JUMP-EQ, taken or not. -/
  | jump {r aa : Nat} (hr : r < Config.nreg) (haa : aa < Config.nmem) :
      Effect s (.jumpEq r aa) (if (s.x[r]'hr) = s.x[0] then s.withPc aa else s)
  /-- HALT. -/
  | halted : Effect s .halt (halt .haltInstruction s)
  /-- One diagnostic, by an unrecognized opcode. -/
  | reported {i : Instr} (hrow : i ∈ unrecognizedRows.map Prod.snd) : Effect s i (reportUnrecognized i.opcode s)
  /-- A MOVE whose destination is no register. -/
  | outOfRange {r aa : Nat} (hlow : Config.nreg ≤ aa) (haa : aa < Config.nmem) :
      Effect s (.move r aa) (raise (.outOfRange .reg aa .write .move) s)
  /-- An add with a source that does not parse. -/
  | malformedValue {i : Instr} {r n : Nat} {site : Site} {op : Op} (hdst : destinationOf i = some r)
      (hn : n < Config.nreg) (hv : hexToInt (s.x[n]'hn) = none) :
      Effect s i (raise (.malformedValue (s.x[n]'hn) site op) s)

/-- The two add opcodes: the sum, or the first source that does not parse. -/
theorem effect_addRegisters {i : Instr} {r src1 src2 : Nat} (hdst : destinationOf i = some r) (hr : r < Config.nreg)
    (h1 : src1 < Config.nreg) (h2 : src2 < Config.nreg) (op : Op) (s : State) :
    ∃ t, finish s (addRegisters op r src1 src2 s) = .next t ∧ Effect s i t := by
  rcases ha : hexToInt (s.x[src1]'h1) with _ | a
  · rw [addRegisters_error_src1 h1 h2 op ha, finish_error]
    exact ⟨_, rfl, .malformedValue hdst h1 ha⟩
  · rcases hb : hexToInt (s.x[src2]'h2) with _ | b
    · rw [addRegisters_error_src2 h1 h2 op ha hb, finish_error]
      exact ⟨_, rfl, .malformedValue hdst h2 hb⟩
    · rw [addRegisters_ok h1 h2 op hr ha hb, finish_ok]
      exact ⟨_, rfl, .register hr hdst (.sum (a + b))⟩

theorem exec_effect {i : Instr} (hwf : i.wellFormed = true) (s : State) : ∃ t, exec i s = .next t ∧ Effect s i t := by
  cases i with
  | loadMem r aa =>
    obtain ⟨hr, haa⟩ := register_byte_fields hwf
    exact ⟨_, exec_loadMem hr haa s, .register hr rfl (.memory aa)⟩
  | loadImm r lit =>
    obtain ⟨hr, hlit⟩ := register_literal_fields hwf
    exact ⟨_, exec_loadImm hr lit s, .register hr rfl (.literal hlit)⟩
  | store r aa =>
    obtain ⟨hr, haa⟩ := register_byte_fields hwf
    exact ⟨_, exec_store hr haa s, .memory hr haa⟩
  | move r aa =>
    obtain ⟨hr, haa⟩ := register_byte_fields hwf
    rcases Nat.lt_or_ge aa Config.nreg with hdst | hout
    · exact ⟨_, exec_move hr hdst s, .register hdst rfl (.register hr)⟩
    · exact ⟨_, exec_move_outOfRange hr hout s, .outOfRange hout haa⟩
  | addInt r src1 src2 | addFloat r src1 src2 =>
    obtain ⟨hr, h1, h2⟩ := three_register_fields hwf
    exact effect_addRegisters rfl hr h1 h2 _ s
  | jumpEq r aa =>
    obtain ⟨hr, haa⟩ := register_byte_fields hwf
    exact ⟨_, exec_jumpEq hr aa s, .jump hr haa⟩
  | halt => exact ⟨_, exec_halt_eq s, .halted⟩
  | unrecognized0 | unrecognized7 | unrecognized8 | unrecognized9 | unrecognizedA | unrecognizedD | unrecognizedE
  | unrecognizedF => exact ⟨_, rfl, .reported (by decide)⟩

theorem effect_of_exec {i : Instr} (hwf : i.wellFormed = true) {s t : State} (h : exec i s = .next t) : Effect s i t := by
  obtain ⟨u, hu, effect⟩ := exec_effect hwf s
  rw [h] at hu
  cases hu
  exact effect

/-! ### The effect of a step -/

/-- Everything a step can do to a Running machine (R77 to R81). -/
inductive StepEffect (s : State) : State → Prop
  /-- The fetch fails. -/
  | fetchFailed (hpc : Config.nmem ≤ s.pc) : StepEffect s (raise (.outOfRange .mem s.pc .read .fetch) s)
  /-- The code is too short. -/
  | short (hpc : s.pc < Config.nmem) (hd : decode (codeAt s) = .malformed) :
      StepEffect s (takeMalformed (fetched (codeAt s) s))
  /-- A character of the code is no digit. -/
  | badDigit {text : Cell} {site : Site} (hpc : s.pc < Config.nmem) (hd : decode (codeAt s) = .badValue text site) :
      StepEffect s (takeBadValue text site (fetched (codeAt s) s))
  /-- The decoded instruction's effect. -/
  | ran {i : Instr} {t : State} (hpc : s.pc < Config.nmem) (hd : decode (codeAt s) = .instr i)
      (effect : Effect (fetched (codeAt s) s) i t) : StepEffect s t

theorem stepEffect_of_step {s t : State} (hrun : s.status = .running) (h : step s = .next t) : StepEffect s t := by
  rcases step_cases s with ⟨hstop, -⟩ | ⟨-, hpc, e⟩ | ⟨-, hpc, ⟨hd, e⟩ | ⟨text, site, hd, e⟩ | ⟨i, hd, e⟩⟩
  · exact absurd hrun hstop
  · rw [e] at h
    cases h
    exact .fetchFailed hpc
  · rw [e] at h
    cases h
    exact .short hpc hd
  · rw [e] at h
    cases h
    exact .badDigit hpc hd
  · rw [e] at h
    exact .ran hpc hd (effect_of_exec (decode_wellFormed hd) h)

/-- A property every effect keeps is kept by every step: a stopped machine's step changes nothing. -/
theorem step_keeps {P : State → Prop} (keeps : ∀ {s t : State}, s.status = .running → P s → StepEffect s t → P t)
    {s t : State} (hs : P s) (h : step s = .next t) : P t := by
  by_cases hrun : s.status = .running
  · exact keeps hrun hs (stepEffect_of_step hrun h)
  · rw [step_of_not_running hrun] at h
    cases h
    exact hs

/-! ### The destination decides which effects are possible -/

theorem ne_of_destination {i j : Instr} {r : Nat} (hi : destinationOf i = some r) (hj : destinationOf j = none) : i ≠ j := by
  rintro rfl
  rw [hj] at hi
  cases hi

theorem destinationOf_unrecognized {i : Instr} (hrow : i ∈ unrecognizedRows.map Prod.snd) : destinationOf i = none := by
  have rows : ∀ j ∈ unrecognizedRows.map Prod.snd, destinationOf j = none := by decide
  exact rows i hrow

/-- No event for an instruction outside the eight rows. -/
theorem diagnosticsOf_instr {code : Cell} {i : Instr} (hd : decode code = .instr i) (addr : Nat) :
    diagnosticsOf code addr =
      if (unrecognizedRows.map Prod.snd).contains i then [.unrecognizedOpcode i.opcode.toChar code addr] else [] := by
  simp only [diagnosticsOf, hd]

theorem not_unrecognized_of_destination {i : Instr} {r : Nat} (hdst : destinationOf i = some r) :
    ¬ (unrecognizedRows.map Prod.snd).contains i = true :=
  fun hrow => ne_of_destination hdst (destinationOf_unrecognized (List.contains_iff_mem.mp hrow)) rfl

/-! ### What each effect leaves, field by field -/

namespace Effect

variable {s t : State} {i : Instr}

theorem ir (effect : Effect s i t) : t.ir = s.ir := by
  cases effect with
  | jump hr haa => split <;> rfl
  | register | memory | halted | reported | outOfRange | malformedValue => rfl

theorem diag (effect : Effect s i t) :
    t.diag = s.diag ++ if (unrecognizedRows.map Prod.snd).contains i then
      [.unrecognizedOpcode i.opcode.toChar s.ir (codeAddress s)] else [] := by
  cases effect with
  | register hr hdst hv => rw [if_neg (not_unrecognized_of_destination hdst), List.append_nil, withX_diag]
  | malformedValue hdst hn hv => rw [if_neg (not_unrecognized_of_destination hdst), List.append_nil, raise_diag]
  | memory hr haa => simp [unrecognizedRows]
  | jump hr haa => split <;> simp [unrecognizedRows]
  | halted => simp [unrecognizedRows]
  | outOfRange hlow haa => simp [unrecognizedRows]
  | reported hrow => rw [if_pos (List.contains_iff_mem.mpr hrow)]; rfl

/-- Only JUMP-EQ writes `pc`. -/
theorem pc (effect : Effect s i t) :
    (∃ r aa, ∃ hr : r < Config.nreg, i = .jumpEq r aa ∧ aa < Config.nmem ∧
      t.pc = if (s.x[r]'hr) = s.x[0] then aa else s.pc) ∨
    ((∀ r aa, i ≠ .jumpEq r aa) ∧ t.pc = s.pc) := by
  cases effect with
  | @jump r aa hr haa => exact .inl ⟨r, aa, hr, rfl, haa, by split <;> rfl⟩
  | register hr hdst hv => exact .inr ⟨fun _ _ => ne_of_destination hdst rfl, rfl⟩
  | malformedValue hdst hn hv => exact .inr ⟨fun _ _ => ne_of_destination hdst rfl, rfl⟩
  | reported hrow => exact .inr ⟨fun _ _ => ne_of_mem_of_not_mem hrow (by simp [unrecognizedRows]), rfl⟩
  | memory | halted | outOfRange => exact .inr ⟨nofun, rfl⟩

/-- Only STORE writes memory. -/
theorem mem (effect : Effect s i t) :
    (∃ r aa, ∃ hr : r < Config.nreg, i = .store r aa ∧ aa < Config.nmem ∧ t.mem = s.mem.write aa (s.x[r]'hr)) ∨
    ((∀ r aa, i ≠ .store r aa) ∧ t.mem = s.mem) := by
  cases effect with
  | @memory r aa hr haa => exact .inl ⟨r, aa, hr, rfl, haa, rfl⟩
  | register hr hdst hv => exact .inr ⟨fun _ _ => ne_of_destination hdst rfl, rfl⟩
  | malformedValue hdst hn hv => exact .inr ⟨fun _ _ => ne_of_destination hdst rfl, rfl⟩
  | reported hrow => exact .inr ⟨fun _ _ => ne_of_mem_of_not_mem hrow (by simp [unrecognizedRows]), rfl⟩
  | jump hr haa => exact .inr ⟨nofun, by split <;> rfl⟩
  | halted | outOfRange => exact .inr ⟨nofun, rfl⟩

/-- Only the named destination register is written, from a source. -/
theorem x (effect : Effect s i t) :
    (∃ r v, ∃ hr : r < Config.nreg, destinationOf i = some r ∧ Source s v ∧ t.x = s.x.set r v hr) ∨ t.x = s.x := by
  cases effect with
  | @register _ r v hr hdst hv => exact .inl ⟨r, v, hr, hdst, hv, rfl⟩
  | jump hr haa => exact .inr (by split <;> rfl)
  | memory | halted | reported | outOfRange | malformedValue => exact .inr rfl

/-- An effect goes on with the engine's fields as they are, or it is a stop on the state it started from. -/
theorem status (effect : Effect s i t) :
    (t.status = s.status ∧ t.haltCause = s.haltCause ∧ t.faultRecord = s.faultRecord) ∨
    (i = .halt ∧ t = halt .haltInstruction s) ∨
    (∃ r aa, i = .move r aa ∧ Config.nreg ≤ aa ∧ aa < Config.nmem ∧ t = raise (.outOfRange .reg aa .write .move) s) ∨
    (∃ n site op, ∃ hn : n < Config.nreg, hexToInt (s.x[n]'hn) = none ∧
      t = raise (.malformedValue (s.x[n]'hn) site op) s) := by
  cases effect with
  | jump hr haa => exact .inl (by split <;> exact ⟨rfl, rfl, rfl⟩)
  | halted => exact .inr (.inl ⟨rfl, rfl⟩)
  | @outOfRange r aa hlow haa => exact .inr (.inr (.inl ⟨r, aa, rfl, hlow, haa, rfl⟩))
  | @malformedValue _ _ n site op hdst hn hv => exact .inr (.inr (.inr ⟨n, site, op, hn, hv, rfl⟩))
  | register | memory | reported => exact .inl ⟨rfl, rfl, rfl⟩

end Effect

end Sys2Proof.Machine
end

section
/-!
PROOFS. What every step keeps and what a step leaves unchanged (spec 10_state.md R22 to R31, 20_memory.md R40 and R52,
40_engine.md R85 and R86, 60_exceptions.md R110 to R112), each read off `StepEffect`.
-/

namespace Sys2Proof.Machine

open Sys2Proof.Statements

/-! ### The invariant -/

/-- A Running machine's status fields agree where it holds neither a cause nor a record. -/
theorem consistent_iff_of_running {s : State} (hrun : s.status = .running) :
    s.consistent ↔ s.haltCause = none ∧ s.faultRecord = none := by
  simp [State.consistent, hrun]

theorem consistent_halt {s : State} (hrun : s.status = .running) (hs : s.consistent) (cause : HaltCause) :
    (halt cause s).consistent := by
  obtain ⟨-, record⟩ := (consistent_iff_of_running hrun).mp hs
  simp [State.consistent, record]

theorem consistent_raise {s : State} (hrun : s.status = .running) (hs : s.consistent) (f : FaultRecord) :
    (raise f s).consistent := by
  obtain ⟨cause, -⟩ := (consistent_iff_of_running hrun).mp hs
  simp [State.consistent, cause]

theorem Effect.consistent {s t : State} {i : Instr} (effect : Effect s i t) (hrun : s.status = .running)
    (hs : s.consistent) : t.consistent := by
  rcases effect.status with ⟨hstatus, hcause, hrecord⟩ | ⟨-, rfl⟩ | ⟨r, aa, -, -, -, rfl⟩ | ⟨n, site, op, hn, -, rfl⟩
  · rwa [State.consistent, hstatus, hcause, hrecord]
  · exact consistent_halt hrun hs _
  · exact consistent_raise hrun hs _
  · exact consistent_raise hrun hs _

theorem Effect.mem_wf {s t : State} {i : Instr} (effect : Effect s i t) (hs : s.mem.wf) : t.mem.wf := by
  rcases effect.mem with ⟨r, aa, hr, -, haa, e⟩ | ⟨-, e⟩
  · rw [e]
    exact write_wf hs haa _
  · rwa [e]

/-- A jump target is an operand field. -/
theorem Effect.pc_le {s t : State} {i : Instr} (effect : Effect s i t) (hs : s.pc ≤ Config.nmem) : t.pc ≤ Config.nmem := by
  rcases effect.pc with ⟨r, aa, hr, -, haa, e⟩ | ⟨-, e⟩
  · rw [e]
    split
    · exact Nat.le_of_lt haa
    · exact hs
  · rwa [e]

theorem StepEffect.inv {s t : State} (hrun : s.status = .running) (hs : s.inv) (effect : StepEffect s t) : t.inv := by
  obtain ⟨hwf, hpc, hcons⟩ := hs
  cases effect with
  | fetchFailed => exact ⟨hwf, hpc, consistent_raise hrun hcons _⟩
  | short hlt =>
    have reported : (emit (.malformedInstruction (codeAt s) s.pc) (fetched (codeAt s) s)).consistent := hcons
    exact ⟨hwf, hlt, consistent_halt hrun reported _⟩
  | badDigit hlt => exact ⟨hwf, hlt, consistent_raise (s := fetched _ s) hrun hcons _⟩
  | ran hlt hd effect => exact ⟨effect.mem_wf hwf, effect.pc_le hlt, effect.consistent hrun hcons⟩

/-- Settles O34: a successful fetch leaves `pc` at most 256, a jump below it, and each stop of a Running machine sets the one
field its status calls for. -/
theorem everyStepKeepsTheInvariant : Obligations.EveryStepKeepsTheInvariant :=
  fun _ _ hs h => step_keeps StepEffect.inv hs h

/-! ### Hexadecimal cells -/

theorem isHexCell_digits {c : Cell} (h : isHexCell c = true) : ∀ d ∈ c, isDigit d := by
  intro d hmem
  obtain ⟨v, hv⟩ := Option.isSome_iff_exists.mp h
  by_contra hd
  have fails := hexSum_none_of_mem hmem (hexDigit_of_not_isDigit hd)
  rw [hexToInt_some hv] at fails
  cases fails

theorem isHexCell_literal {lit : Cell} (h : literalField lit = true) : isHexCell lit = true := by
  obtain ⟨c, d, u, v, rfl, hc, hd⟩ := literalField_digits h
  have one : hexSum [d] = some v := by simp [hexSum, hd]
  rw [isHexCell, hexToInt_eq_hexSum (List.cons_ne_nil c [d]), hexSum_cons hc one]
  rfl

theorem isHexCell_intToHex (v : Nat) : isHexCell (intToHex v) = true := by
  rw [isHexCell, hexToInt_intToHex]
  rfl

section
variable {s t : State}

theorem isHexCell_register (hs : s.hexOnly) {n : Nat} (hn : n < Config.nreg) : isHexCell (s.x[n]'hn) = true :=
  hs.1 ⟨n, hn⟩

/-- An unlisted address reads as "00", which is hexadecimal. -/
theorem isHexCell_read (hs : s.hexOnly) (a : Nat) : isHexCell (s.mem.read a) = true := by
  rcases read_listed_or_initial s.mem a with listed | initial
  · exact hs.2 _ listed
  · rw [initial]
    rfl

theorem Source.isHexCell {v : Cell} (source : Source s v) (hs : s.hexOnly) : isHexCell v = true := by
  cases source with
  | register hn => exact isHexCell_register hs hn
  | memory a => exact isHexCell_read hs a
  | literal hlit => exact isHexCell_literal hlit
  | sum v => exact isHexCell_intToHex v

theorem Effect.hexOnly {i : Instr} (effect : Effect s i t) (hs : s.hexOnly) : t.hexOnly := by
  constructor
  · intro n
    rcases effect.x with ⟨r, v, hr, -, source, e⟩ | e
    · simp only [e, Fin.getElem_fin, Vector.getElem_set]
      split
      · exact source.isHexCell hs
      · exact hs.1 n
    · rw [e]
      exact hs.1 n
  · intro p hp
    rcases effect.mem with ⟨r, aa, hr, -, -, e⟩ | ⟨-, e⟩
    · rw [e] at hp
      rcases mem_write hp with rfl | hp
      · exact isHexCell_register hs hr
      · exact hs.2 p hp
    · rw [e] at hp
      exact hs.2 p hp

theorem StepEffect.hexOnly (_ : s.status = .running) (hs : s.hexOnly) (effect : StepEffect s t) : t.hexOnly := by
  cases effect with
  | fetchFailed => exact hs
  | short => exact hs
  | badDigit => exact hs
  | ran hlt hd effect => exact effect.hexOnly (s := fetched _ s) hs

/-- A hexadecimal code is short or decodes to an instruction. -/
theorem decode_isHexCell {code : Cell} (h : isHexCell code = true) (text : Cell) (site : Site) :
    decode code ≠ .badValue text site := by
  intro hd
  have long : 4 ≤ code.length := length_of_not_malformed (by simp [hd])
  obtain ⟨c0, c1, c2, c3, rest, rfl⟩ := four_of_length long
  have digits := isHexCell_digits h
  obtain ⟨i, hi⟩ := decode_four_digits (rest := rest) (digits c0 (by simp)) (digits c1 (by simp)) (digits c2 (by simp))
    (digits c3 (by simp))
  rw [hi] at hd
  cases hd

/-- Neither decode nor an add meets a cell that does not parse. -/
theorem StepEffect.noMalformedValue (hs : s.hexOnly) (hrec : s.noMalformedValue) (effect : StepEffect s t) :
    t.noMalformedValue := by
  cases effect with
  | fetchFailed =>
    intro text site op h
    cases h
  | short => exact hrec
  | badDigit hlt hd => exact absurd hd (decode_isHexCell (isHexCell_read hs s.pc) _ _)
  | ran hlt hd effect =>
    rcases effect.status with ⟨-, -, same⟩ | ⟨-, rfl⟩ | ⟨r, aa, -, -, -, rfl⟩ | ⟨n, site, op, hn, hv, rfl⟩
    · rw [State.noMalformedValue, same]
      exact hrec
    · exact hrec
    · intro text site op h
      cases h
    · have parses : isHexCell (s.x[n]'hn) = true := isHexCell_register hs hn
      rw [isHexCell, Option.isSome_iff_ne_none] at parses
      exact absurd hv parses

end

/-- Settles O38: what is written is a copy of a cell, a literal's two digits, or a rendered sum. -/
theorem hexCellsStayHex : Obligations.HexCellsStayHex :=
  fun _ _ hs h => step_keeps StepEffect.hexOnly hs h

/-- Settles O39: by induction on the steps, with the hexadecimal cells kept along. -/
theorem hexProgramsNeverRaiseMalformedValue : Obligations.HexProgramsNeverRaiseMalformedValue := by
  intro s t n hs hrec h
  have kept : ∀ u v : State, u.hexOnly ∧ u.noMalformedValue → step u = .next v → v.hexOnly ∧ v.noMalformedValue :=
    fun _ _ hu hstep => step_keeps (P := fun w => w.hexOnly ∧ w.noMalformedValue)
      (fun hrun hw effect => ⟨effect.hexOnly hrun hw.1, effect.noMalformedValue hw.1 hw.2⟩) hu hstep
  exact (run_keeps kept n ⟨hs, hrec⟩ h).2

/-! ### Stops -/

/-- Settles O40: of the stops that leave a record, only the failed fetch and the MOVE past the registers leave this one. -/
theorem reachableOutOfRangeRecords : Obligations.ReachableOutOfRangeRecords := by
  intro s t space index access op hrun hnone h hrec
  cases stepEffect_of_step hrun h with
  | fetchFailed hpc =>
    cases hrec
    exact .inl ⟨rfl, rfl, rfl, rfl, hpc⟩
  | short =>
    rw [takeMalformed_eq, halt_faultRecord, emit_faultRecord, fetched_faultRecord, hnone] at hrec
    cases hrec
  | badDigit => cases hrec
  | ran hlt hd effect =>
    rcases effect.status with ⟨-, -, same⟩ | ⟨-, rfl⟩ | ⟨r, aa, rfl, hlow, haa, rfl⟩ | ⟨n, site, op, hn, -, rfl⟩
    · rw [same, fetched_faultRecord, hnone] at hrec
      cases hrec
    · rw [halt_faultRecord, fetched_faultRecord, hnone] at hrec
      cases hrec
    · cases hrec
      exact .inr ⟨rfl, rfl, rfl, r, aa, hd, rfl, hlow, haa⟩
    · cases hrec

/-- An instruction ends a run only by HALT or by raising, on the state its fetch has left. -/
theorem Effect.stop {s t : State} {i : Instr} (effect : Effect s i t) (hrun : s.status = .running)
    (hstop : t.status ≠ .running) : (i = .halt ∧ t = halt .haltInstruction s) ∨ ∃ f, t = raise f s := by
  rcases effect.status with ⟨same, -, -⟩ | ended | ⟨r, aa, -, -, -, e⟩ | ⟨n, site, op, hn, -, e⟩
  · exact absurd (same.trans hrun) hstop
  · exact .inl ended
  · exact .inr ⟨_, e⟩
  · exact .inr ⟨_, e⟩

/-- The steps that end a run: a failed fetch, or after the fetch a short code, HALT, or a raise on a longer code. -/
theorem StepEffect.stop {s t : State} (effect : StepEffect s t) (hrun : s.status = .running) (hstop : t.status ≠ .running) :
    (Config.nmem ≤ s.pc ∧ ∃ f, t = raise f s) ∨
    (s.pc < Config.nmem ∧
      (((codeAt s).length < 4 ∧ t = takeMalformed (fetched (codeAt s) s)) ∨
       (decode (codeAt s) = .instr .halt ∧ t = halt .haltInstruction (fetched (codeAt s) s)) ∨
       ∃ f, t = raise f (fetched (codeAt s) s))) := by
  cases effect with
  | fetchFailed hpc => exact .inl ⟨hpc, _, rfl⟩
  | short hpc hd => exact .inr ⟨hpc, .inl ⟨(decode_eq_malformed_iff _).mp hd, rfl⟩⟩
  | badDigit hpc hd => exact .inr ⟨hpc, .inr (.inr ⟨_, rfl⟩)⟩
  | ran hpc hd effect =>
    rcases effect.stop hrun hstop with ⟨rfl, e⟩ | raised
    · exact .inr ⟨hpc, .inr (.inl ⟨hd, e⟩)⟩
    · exact .inr ⟨hpc, .inr (.inr raised)⟩

/-- A raise is by one of the two errors. -/
theorem raise_ends (f : FaultRecord) (s : State) :
    ((raise f s).status = .faulted ∧
      ∃ space index access op, (raise f s).faultRecord = some (.outOfRange space index access op)) ∨
    ((raise f s).status = .faulted ∧ ∃ text site op, (raise f s).faultRecord = some (.malformedValue text site op)) := by
  cases f with
  | outOfRange space index access op => exact .inl ⟨rfl, space, index, access, op, rfl⟩
  | malformedValue text site op => exact .inr ⟨rfl, text, site, op, rfl⟩

/-- Settles O41: the ways of `StepEffect.stop`, a raise by its error. -/
theorem runEndsInFourWays : Obligations.RunEndsInFourWays := by
  intro s t hrun h hstop
  rcases (stepEffect_of_step hrun h).stop hrun hstop with
    ⟨-, f, rfl⟩ | ⟨-, ⟨hshort, rfl⟩ | ⟨hd, rfl⟩ | ⟨f, rfl⟩⟩
  · exact .inr (.inr (raise_ends f s))
  · exact .inr (.inl ⟨rfl, rfl, hshort⟩)
  · exact .inl ⟨rfl, rfl, hd⟩
  · exact .inr (.inr (raise_ends f _))

/-- Settles O42: each stop is on the state before the fetch, or on the one after it; only the short code's adds an event. -/
theorem stopsArePrecise : Obligations.StopsArePrecise := by
  intro s t hrun h hstop
  rcases (stepEffect_of_step hrun h).stop hrun hstop with
    ⟨hpc, f, rfl⟩ | ⟨hpc, ⟨hshort, rfl⟩ | ⟨hd, rfl⟩ | ⟨f, rfl⟩⟩
  · exact ⟨rfl, rfl, fun hlt => absurd hlt (Nat.not_lt_of_le hpc), fun _ => ⟨rfl, rfl, rfl⟩⟩
  · exact ⟨rfl, rfl, fun _ => ⟨rfl, rfl, fun hlong => absurd hshort (Nat.not_lt_of_le hlong)⟩,
      fun hge => absurd hpc (Nat.not_lt_of_le hge)⟩
  · exact ⟨rfl, rfl, fun _ => ⟨rfl, rfl, fun _ => rfl⟩, fun hge => absurd hpc (Nat.not_lt_of_le hge)⟩
  · exact ⟨rfl, rfl, fun _ => ⟨rfl, rfl, fun _ => rfl⟩, fun hge => absurd hpc (Nat.not_lt_of_le hge)⟩

/-! ### What a step writes -/

/-- Settles O43: the jump compares registers, which the fetch has not changed. -/
theorem onlyFetchAndJumpWritePc : Obligations.OnlyFetchAndJumpWritePc := by
  intro s t hrun h
  cases stepEffect_of_step hrun h with
  | fetchFailed hpc => exact ⟨fun _ => rfl, fun hlt => absurd hlt (Nat.not_lt_of_le hpc)⟩
  | short hpc hd =>
    exact ⟨fun hge => absurd hpc (Nat.not_lt_of_le hge), fun _ => ⟨fun _ _ e => absurd (hd.symm.trans e) nofun, fun _ => rfl⟩⟩
  | badDigit hpc hd =>
    exact ⟨fun hge => absurd hpc (Nat.not_lt_of_le hge), fun _ => ⟨fun _ _ e => absurd (hd.symm.trans e) nofun, fun _ => rfl⟩⟩
  | ran hpc hd effect =>
    refine ⟨fun hge => absurd hpc (Nat.not_lt_of_le hge), fun _ => ?_⟩
    rw [hd]
    rcases effect.pc with ⟨r, aa, hr, rfl, -, e⟩ | ⟨hother, e⟩
    · refine ⟨fun r' aa' same => ?_, fun hno => absurd rfl (hno r aa)⟩
      cases same
      exact ⟨hr, e⟩
    · exact ⟨fun r aa same => absurd (Decoded.instr.inj same) (hother r aa), fun _ => e⟩

/-- Settles O44: no way a step goes on after its fetch writes `ir`. -/
theorem onlyFetchWritesIr : Obligations.OnlyFetchWritesIr := by
  intro s t hrun h
  cases stepEffect_of_step hrun h with
  | fetchFailed hpc =>
    rw [if_neg (Nat.not_lt_of_le hpc)]
    rfl
  | short hpc =>
    rw [if_pos hpc]
    rfl
  | badDigit hpc =>
    rw [if_pos hpc]
    rfl
  | ran hpc hd effect => rw [if_pos hpc, effect.ir, fetched_ir]

/-- Settles O45: the event names the fetched code and, through the advanced `pc`, the address it came from. -/
theorem diagnosticsAreAppended : Obligations.DiagnosticsAreAppended := by
  intro s t hrun h
  cases stepEffect_of_step hrun h with
  | fetchFailed hpc => rw [if_neg (Nat.not_lt_of_le hpc), List.append_nil, raise_diag]
  | short hpc hd =>
    rw [if_pos hpc, takeMalformed_fetched]
    simp only [diagnosticsOf, hd]
  | badDigit hpc hd =>
    rw [if_pos hpc, takeBadValue_eq]
    simp only [diagnosticsOf, hd, raise_diag, fetched_diag, List.append_nil]
  | ran hpc hd effect =>
    rw [if_pos hpc, effect.diag, diagnosticsOf_instr hd, fetched_diag, fetched_ir, codeAddress_fetched]

/-- Settles O46: a STORE's memory is one write, which `read_write` reads back; every other effect keeps the list. -/
theorem onlyStoreWritesMemory : Obligations.OnlyStoreWritesMemory := by
  intro s t hrun hwf h
  cases stepEffect_of_step hrun h with
  | fetchFailed hpc => exact ⟨fun _ => rfl, fun hlt => absurd hlt (Nat.not_lt_of_le hpc)⟩
  | short hpc hd => exact ⟨fun _ => rfl, fun _ => ⟨fun _ _ e => absurd (hd.symm.trans e) nofun, fun _ => rfl⟩⟩
  | badDigit hpc hd => exact ⟨fun _ => rfl, fun _ => ⟨fun _ _ e => absurd (hd.symm.trans e) nofun, fun _ => rfl⟩⟩
  | ran hpc hd effect =>
    refine ⟨fun hge => absurd hpc (Nat.not_lt_of_le hge), fun _ => ?_⟩
    rw [hd]
    rcases effect.mem with ⟨r, aa, hr, rfl, -, e⟩ | ⟨hother, e⟩
    · refine ⟨fun r' aa' same => ?_, fun hno => absurd rfl (hno r aa)⟩
      cases same
      refine ⟨hr, fun a => ?_⟩
      rw [e]
      exact read_write hwf aa _ a
    · exact ⟨fun r aa same => absurd (Decoded.instr.inj same) (hother r aa), fun _ => e⟩

/-- Settles O47: the one register an effect writes is the destination, which is not `n`. -/
theorem onlyTheDestinationRegisterChanges : Obligations.OnlyTheDestinationRegisterChanges := by
  intro s t n hn hrun h hdst
  cases stepEffect_of_step hrun h with
  | fetchFailed => rfl
  | short => rfl
  | badDigit => rfl
  | ran hpc hd effect =>
    rcases effect.x with ⟨r, v, hr, hr', -, e⟩ | e
    · have other : r ≠ n := fun same => hdst _ hpc hd (by rw [hr', same])
      simp only [e]
      exact Vector.getElem_set_ne hr hn other
    · simp only [e, fetched_x]

/-! ### Self-modifying code, and a load after a step -/

/-- Settles O48: the STORE leaves a Running machine whose code is the stored register, and the next step is the one its code
calls for. -/
theorem storedCodeIsFetchedNext : Obligations.StoredCodeIsFetchedNext := by
  intro s r hrun hwf hpc hd
  obtain ⟨hr, haa⟩ := register_byte_fields (decode_wellFormed hd)
  have hstep := step_eq_exec hrun (Nat.lt_of_succ_lt hpc) hd
  rw [exec_store hr haa, fetched_x, fetched_mem] at hstep
  have code : (s.mem.write (s.pc + 1) s.x[r]).read (s.pc + 1) = s.x[r] := by rw [read_write hwf, if_pos rfl]
  refine ⟨hr, _, hstep, hrun, rfl, code, fun hshort => ?_, fun i hi => ?_⟩
  · exact ⟨_, shortCodeHaltsWithDiagnostic _ hrun hpc ((congrArg List.length code).trans_lt hshort), rfl, rfl⟩
  · exact stepRunsTheDecodedInstruction _ i hrun hpc ((congrArg decode code).trans hi)

/-- A step leaves a machine that is not Running, or has a code in `ir`. -/
theorem notStepped_of_step {s t : State} (h : step s = .next t) : t.notStepped = false := by
  by_cases hrun : s.status = .running
  · cases stepEffect_of_step hrun h with
    | fetchFailed => rfl
    | short => rfl
    | badDigit => rfl
    | ran hpc hd effect =>
      have long : 4 ≤ (codeAt s).length := length_of_not_malformed (by simp [hd])
      have code : t.ir ≠ [] := by
        rw [effect.ir, fetched_ir]
        exact List.ne_nil_of_length_pos (by omega)
      simp [State.notStepped, code]
  · rw [step_of_not_running hrun] at h
    cases h
    simp [State.notStepped, hrun]

/-- Settles O54: the load's test sees that a step was made. -/
theorem loadAfterAStepIsRefused : Obligations.LoadAfterAStepIsRefused := by
  intro s t program outcome h
  rw [load, notStepped_of_step h]
  rfl

end Sys2Proof.Machine
end
